-- ==== Sys2Proof/Word.lean ====
section
/-! DEFINITION. The widths of CHEQ's data: bytes of image memory, 16-bit fields and weights, 32-bit registers
(spec/00_scope.md R7, R8). -/

namespace Sys2Proof

/-- An image-memory byte, a gray sample, one channel of a color pixel, or a remap-table entry (R7, R24, R42). -/
abbrev Byte := BitVec 8

/-- A 16-bit field: IMG_W, IMG_H, KDIV, or a kernel weight in two's complement (R27, R30, R40). -/
abbrev Half := BitVec 16

/-- A 32-bit register, command word or histogram count (R22, R41, R90). -/
abbrev Word := BitVec 32

end Sys2Proof
end

