-- ==== Sys2Proof/Config.lean ====
section
/-! DEFINITION. What an implementation of CHEQ fixes (the parameters of spec/00_scope.md R7), and the free values the
spec leaves open (spec/93_implementation_defined.md U2, U4). -/

namespace Sys2Proof

/-- A catalog kernel as a data table: nine weights in row-major order and a divisor (R7, R131). -/
structure KernelTable where
  /-- KMEM[0..8], each in two's complement. -/
  weights : Vector Half 9
  /-- KDIV. -/
  divisor : Half
deriving DecidableEq, Repr

/-- The implementation parameters of R7. The model takes them as an argument: they stand in the state as a part that
no step changes, so a statement about every state speaks of every legal value (log entry 1). -/
structure Params where
  /-- IMEM_AW: image memory is `2 ^ imemAw` bytes. -/
  imemAw : Nat
  /-- KMAX: the largest kernel side the engine accepts. -/
  kmax : Nat
  /-- REG_BASE: host address of the register window. -/
  regBase : Nat
  /-- IMEM_BASE: host address of image memory. -/
  imemBase : Nat
  /-- PRESET_W2, the SHARPEN table. -/
  presetW2 : KernelTable
  /-- PRESET_W3, the OUTLINE table. -/
  presetW3 : KernelTable
  /-- PRESET_W4, the EMBOSS table. -/
  presetW4 : KernelTable
deriving DecidableEq, Repr

/-- Image memory holds `2 ^ IMEM_AW` bytes (R43). -/
def Params.imemSize (p : Params) : Nat := 2 ^ p.imemAw

/-- The values the spec's test vectors use: IMEM_AW = 16, KMAX = 7 and the default tables of R131 (which the spec
marks as from general knowledge). DESIGN CHOICE: the two base addresses (log entry 1). -/
def Params.vectors : Params where
  imemAw := 16
  kmax := 7
  regBase := 0x10000
  imemBase := 0
  presetW2 := ⟨#v[0, -1, 0, -1, 5, -1, 0, -1, 0], 1⟩
  presetW3 := ⟨#v[-1, -1, -1, -1, 8, -1, -1, -1, -1], 1⟩
  presetW4 := ⟨#v[-2, -1, 0, -1, 1, 1, 0, 1, 2], 1⟩

/-- FREE VALUE: what a host read that the busy engine refuses returns (R281, U2), by number of the draw. -/
opaque Config.freeReadWord : Nat → Word

/-- FREE VALUE: an image-memory byte an aborted command would have written (R219, U4), by number of the draw and
address. -/
opaque Config.freeImemByte : Nat → Nat → Byte

/-- FREE VALUE: a LUT entry an aborted command would have written (R219, U4), by number of the draw and index. -/
opaque Config.freeLutEntry : Nat → Nat → Byte

/-- FREE VALUE: a KMEM entry an aborted LOADK would have written (R219, U4), by number of the draw and index. -/
opaque Config.freeKmemEntry : Nat → Nat → Half

end Sys2Proof
end

