-- ==== Sys2Proof/Syntax.lean ====
section
/-! DEFINITION. The command set (spec/30_encoding.md R95, R96), the raw fields of a command word (R91), the names of
the register window (spec/10_state.md R22), and the lines of a host script (spec/30_encoding.md R100, R101). -/

namespace Sys2Proof

/-- FMT: the pixel format of an image command (R24, R92). -/
inductive Format
  /-- FMT = 0: one byte a pixel. -/
  | gray
  /-- FMT = 1: three bytes a pixel, blue, green, red. -/
  | color
deriving DecidableEq, Repr

/-- The fifteen legal commands, one constructor a row of spec/opcode_table.json (R96). A command carries no operand:
its operands come from registers (R94). -/
inductive Instr
  | nop
  | convG
  | convC
  | histoG
  | histoC
  | eqlut
  | lutapG
  | lutapC
  | equalG
  | equalC
  | loadkBox
  | loadkGauss
  | loadkSharpen
  | loadkOutline
  | loadkEmboss
deriving DecidableEq, Repr

/-- The four fields of a command word (R91). -/
structure CommandFields where
  /-- Bits 31:8, reserved. -/
  rsvd : BitVec 24
  /-- Bits 7:5, the catalog index of LOADK. -/
  preset : BitVec 3
  /-- Bit 4, the pixel format. -/
  fmt : BitVec 1
  /-- Bits 3:0, the operation. -/
  op : BitVec 4
deriving DecidableEq, Repr

/-- What a word-aligned offset of the register window selects (R22, R44). -/
inductive Reg
  | id
  | caps
  | ctrl
  | status
  | ier
  | cmd
  | imgBase
  | imgW
  | imgH
  | ksize
  | kdiv
  | eqN
  | eqCdfMin
  | eqStat
  /-- HIST[i], at 0x400 + 4·i. -/
  | hist (i : Fin 256)
  /-- LUT[4j..4j+3], at 0x800 + 4·j. -/
  | lutw (j : Fin 64)
  /-- KMEM[i], at 0xC00 + 4·i. -/
  | kmem (i : Nat)
  /-- A reserved offset (R37). -/
  | reserved (offset : Nat)
deriving DecidableEq, Repr

/-- A host transaction reads, or writes a value travelling in the low bits of 32 bus bits (R64). -/
inductive AccessKind
  | read
  | write (value : Word)
deriving DecidableEq, Repr

/-- One host transaction: a host address (R61), a width in bytes, and its kind. -/
structure HostAccess where
  addr : Nat
  width : Nat
  kind : AccessKind
deriving DecidableEq, Repr

/-- One line of a host script (R100, R101). `wait` is the polling loop of R101. `takeIrq` is the other way of
waiting that R83 gives the host: it goes on once IRQ is high. -/
inductive HostLine
  | access (a : HostAccess)
  | wait
  | takeIrq
deriving DecidableEq, Repr

end Sys2Proof
end

