-- ==== Sys2Proof/WellFormed.lean ====
section
/-! DEFINITION. The checks on terms of the syntax: a command word's fields (spec/30_encoding.md R97), the parameters
(spec/00_scope.md R7, spec/20_memory.md R61) and a host access (spec/20_memory.md R62, R63). A constructor of `Instr`
has no operand, so every `Instr` is well formed; what can be ill formed is the word. -/

namespace Sys2Proof

/-- R97: the reserved bits are 0. -/
def CommandFields.rsvdOk (f : CommandFields) : Bool := f.rsvd == 0

/-- R97: OP is none of 0x7 to 0xF. -/
def CommandFields.opOk (f : CommandFields) : Bool := f.op.toNat < 7

/-- R97: FMT is 0 for NOP, EQLUT and LOADK. -/
def CommandFields.fmtOk (f : CommandFields) : Bool :=
  !(f.op == 0 || f.op == 3 || f.op == 6) || f.fmt == 0

/-- R97: PRESET is 0 but for LOADK, and at most 4 for LOADK. -/
def CommandFields.presetOk (f : CommandFields) : Bool :=
  if f.op == 6 then f.preset.toNat ≤ 4 else f.preset == 0

/-- R97: the word with these fields is legal when none of the five conditions holds. -/
def CommandFields.legal (f : CommandFields) : Bool :=
  f.rsvdOk && f.opOk && f.fmtOk && f.presetOk

/-- R7: a catalog divisor lies in [1, 65535]; the weights are 16 bits by type. -/
def KernelTable.legal (t : KernelTable) : Bool := t.divisor != 0

/-- R61: the platform places the two ranges so that they do not overlap. -/
def Params.disjoint (p : Params) : Bool :=
  p.regBase + 0x1000 ≤ p.imemBase || p.imemBase + p.imemSize ≤ p.regBase

/-- R7's legal values, and R61. -/
def Params.legal (p : Params) : Bool :=
  (12 ≤ p.imemAw && p.imemAw ≤ 32)
    && (p.kmax % 2 == 1 && 3 ≤ p.kmax && p.kmax ≤ 15)
    && p.regBase % 0x1000 == 0
    && p.imemBase % p.imemSize == 0
    && p.disjoint
    && p.presetW2.legal && p.presetW3.legal && p.presetW4.legal

/-- R62: a register-window access is 32 bits wide at an offset that is a multiple of 4. -/
def HostAccess.registerAligned (a : HostAccess) (offset : Nat) : Bool :=
  a.width == 4 && offset % 4 == 0

/-- R63: an IMEM access is 1, 2 or 4 bytes wide at a multiple of its width. -/
def HostAccess.imemAligned (a : HostAccess) (address : Nat) : Bool :=
  (a.width == 1 || a.width == 2 || a.width == 4) && address % a.width == 0

end Sys2Proof
end

