-- ==== Sys2Proof/Decode.lean ====
section
/-! DEFINITION. The decoder of spec/30_encoding.md R99, total on any word and on any bytes, rejecting by name; and the
encoder, from the tables R91 and R95. -/

namespace Sys2Proof

/-- Why bits are no command: the conditions of R97, and fewer bytes than a command word has (R90). Each is ILLEGAL_CMD
at issue (R232), but for `truncated`, which no 32-bit CMD write can give. -/
inductive DecodeError
  | rsvdNonZero
  | reservedOp
  | fmtNotAllowed
  | presetNotAllowed
  | presetOutsideCatalog
  | truncated
deriving DecidableEq, Repr

/-- The fields of a word (R91). -/
def fieldsOf (w : Word) : CommandFields where
  rsvd := w.extractLsb' 8 24
  preset := w.extractLsb' 5 3
  fmt := w.extractLsb' 4 1
  op := w.extractLsb' 0 4

/-- R99's lines for an OP without a pixel format: FMT and PRESET must be 0. -/
def decodeUnformatted (f : CommandFields) (i : Instr) : Except DecodeError Instr :=
  if f.fmt ≠ 0 then .error .fmtNotAllowed
  else if f.preset ≠ 0 then .error .presetNotAllowed
  else .ok i

/-- R99's lines for an image command: PRESET must be 0, FMT picks the form. -/
def decodeFormatted (f : CommandFields) (gray color : Instr) : Except DecodeError Instr :=
  if f.preset ≠ 0 then .error .presetNotAllowed
  else if f.fmt = 0 then .ok gray
  else .ok color

/-- R99's line for LOADK: FMT must be 0, PRESET is a catalog index (R93). -/
def decodeLoadk (f : CommandFields) : Except DecodeError Instr :=
  if f.fmt ≠ 0 then .error .fmtNotAllowed
  else match f.preset.toNat with
    | 0 => .ok .loadkBox
    | 1 => .ok .loadkGauss
    | 2 => .ok .loadkSharpen
    | 3 => .ok .loadkOutline
    | 4 => .ok .loadkEmboss
    | _ => .error .presetOutsideCatalog

/-- R99 on the fields of a word. -/
def decodeFields (f : CommandFields) : Except DecodeError Instr :=
  if f.rsvd ≠ 0 then .error .rsvdNonZero
  else match f.op.toNat with
    | 0 => decodeUnformatted f .nop
    | 1 => decodeFormatted f .convG .convC
    | 2 => decodeFormatted f .histoG .histoC
    | 3 => decodeUnformatted f .eqlut
    | 4 => decodeFormatted f .lutapG .lutapC
    | 5 => decodeFormatted f .equalG .equalC
    | 6 => decodeLoadk f
    | _ => .error .reservedOp

/-- The decoder of R99. -/
def decode (w : Word) : Except DecodeError Instr := decodeFields (fieldsOf w)

/-- A 32-bit value from four bytes, the first at the lowest address (R64). -/
def wordOfBytes (b0 b1 b2 b3 : Byte) : Word := b3 ++ b2 ++ b1 ++ b0

/-- The decoder on bytes: a command is always exactly one 32-bit word (R90). -/
def decodeBytes : List Byte → Except DecodeError (Instr × List Byte)
  | b0 :: b1 :: b2 :: b3 :: rest =>
    match decode (wordOfBytes b0 b1 b2 b3) with
    | .ok i => .ok (i, rest)
    | .error e => .error e
  | _ => .error .truncated

/-- The fields of each legal command (R95, R96). -/
def Instr.fields : Instr → CommandFields
  | .nop => ⟨0, 0, 0, 0x0⟩
  | .convG => ⟨0, 0, 0, 0x1⟩
  | .convC => ⟨0, 0, 1, 0x1⟩
  | .histoG => ⟨0, 0, 0, 0x2⟩
  | .histoC => ⟨0, 0, 1, 0x2⟩
  | .eqlut => ⟨0, 0, 0, 0x3⟩
  | .lutapG => ⟨0, 0, 0, 0x4⟩
  | .lutapC => ⟨0, 0, 1, 0x4⟩
  | .equalG => ⟨0, 0, 0, 0x5⟩
  | .equalC => ⟨0, 0, 1, 0x5⟩
  | .loadkBox => ⟨0, 0, 0, 0x6⟩
  | .loadkGauss => ⟨0, 1, 0, 0x6⟩
  | .loadkSharpen => ⟨0, 2, 0, 0x6⟩
  | .loadkOutline => ⟨0, 3, 0, 0x6⟩
  | .loadkEmboss => ⟨0, 4, 0, 0x6⟩

/-- A word from its fields, the reserved bits topmost (R91). -/
def wordOfFields (f : CommandFields) : Word := f.rsvd ++ f.preset ++ f.fmt ++ f.op

/-- The encoder: the one word of a command (R96). -/
def encode (i : Instr) : Word := wordOfFields i.fields

/-- The four bytes of a command word, the lowest address first (R64). -/
def encodeBytes (i : Instr) : List Byte :=
  (List.range 4).map fun k => (encode i).extractLsb' (8 * k) 8

/-- The command a row of the opcode table decodes to: the row's bits as the host would write them to CMD, taken as
the bytes of a little-endian word (R64, R90). -/
def decodeTableWord (nbits w : Nat) : Option Instr :=
  let v := w % 2 ^ nbits
  if v < 2 ^ 32 then
    match decodeBytes ((List.range 4).map fun k => BitVec.ofNat 8 (v / 2 ^ (8 * k))) with
    | .ok (i, _) => some i
    | .error _ => none
  else none

end Sys2Proof
end

