-- ==== Sys2Proof/Machine/State.lean ====
section
/-! DEFINITION. Everything the spec gives CHEQ as state (spec/10_state.md R20, R50), as plain data; the reasons a step
can stop; and the state a power-on reset leaves (R51, spec/70_reset_and_hazards.md R270). -/

namespace Sys2Proof.Machine

/-- Image memory as a list of cells in one canonical form: addresses strictly rising, and no entry equal to what an
unlisted address reads as (`Memory.unlisted`). -/
abbrev Memory := List Host.Cell

/-- What an address that is not listed reads as. DESIGN CHOICE, unsafe: the spec leaves IMEM unspecified at power-on
(R51); a state may list any contents at all (log entry 2). -/
def Memory.unlisted : Byte := 0

/-- The canonical form, from the left: every address is at least `low`. -/
def Memory.wfFrom (low : Nat) : Memory → Bool
  | [] => true
  | (a, b) :: rest => low ≤ a && b != Memory.unlisted && Memory.wfFrom (a + 1) rest

/-- The canonical form of image memory. -/
def Memory.wf (m : Memory) : Bool := Memory.wfFrom 0 m

/-- Every listed address lies below the bound: image memory lists no address outside it (R43). -/
def Memory.below (bound : Nat) (m : Memory) : Prop := ∀ cell ∈ m, cell.1 < bound

/-- STATUS.ERRCODE (R231). Codes 5 to 15 are never produced (U11), so they are no constructors. -/
inductive ErrCode
  | none
  | illegalCmd
  | ksizeErr
  | kdivErr
  | boundsErr
deriving DecidableEq, Repr

/-- STATUS (R31), but for BUSY, which shows ESTATE (R50). -/
structure Status where
  done : Bool
  err : Bool
  ovr : Bool
  haz : Bool
  errcode : ErrCode
deriving DecidableEq, Repr

/-- IER (R32). -/
structure Ier where
  doneIe : Bool
  errIe : Bool
  ovrIe : Bool
  hazIe : Bool
deriving DecidableEq, Repr

/-- LATCH and the snapshot P0 (R50, R212): the command in flight, the operand registers copied at acceptance, and
every image-memory byte at acceptance. The fields OP, FMT and PRESET are those of the command's word. -/
structure Latch where
  instr : Instr
  imgBase : Word
  imgW : Half
  imgH : Half
  ksize : BitVec 4
  kdiv : Half
  snapshot : Memory
deriving DecidableEq, Repr

/-- ESTATE (R50). LATCH has meaning only while busy, so it stands there. -/
inductive Engine
  | idle
  | busy (latch : Latch)
deriving DecidableEq, Repr

/-- The two agents (R5). -/
inductive Agent
  | host
  | engine
deriving DecidableEq, Repr

/-- What the bus gave back to the host's last access. -/
inductive Response
  | none
  | written
  | data (value : Word)
deriving DecidableEq, Repr

/-- The state of CHEQ and, in its last four fields, of the host that drives it. -/
structure State where
  /-- The implementation parameters (R7); no step changes them. -/
  params : Params
  /-- STATUS but for BUSY (R31). -/
  status : Status
  /-- IER (R32). -/
  ier : Ier
  /-- CMD (R33). -/
  cmd : Word
  /-- IMG_BASE, below 2^IMEM_AW (R28). -/
  imgBase : Word
  /-- IMG_W (R27). -/
  imgW : Half
  /-- IMG_H (R27). -/
  imgH : Half
  /-- KSIZE (R29). -/
  ksize : BitVec 4
  /-- KDIV (R30). -/
  kdiv : Half
  /-- EQ_N (R34). -/
  eqN : Word
  /-- EQ_CDFMIN (R35). -/
  eqCdfMin : Word
  /-- EQ_STAT.DEGEN (R36). -/
  degen : Bool
  /-- KMEM, KMAX² weights (R40). -/
  kmem : List Half
  /-- HIST (R41). -/
  hist : Vector Word 256
  /-- LUT (R42). -/
  lut : Vector Byte 256
  /-- IMEM (R43). -/
  imem : Memory
  /-- ESTATE and LATCH (R50). -/
  engine : Engine
  /-- The host's remaining script (R100); the model's own field (log entry 4). -/
  script : List HostLine
  /-- Who moves next, one entry for each step at which both agents can move (U13); the model's own field (log
  entry 3). -/
  turns : List Agent
  /-- The bus response to the host's last access; the model's own field. -/
  response : Response
  /-- How many free draws were made; the model's own field (log entry 5). -/
  draws : Nat
deriving DecidableEq, Repr

/-- Why a step stops with a fault: a bus-error response, which R65 makes a fault of the host access that caused it,
naming it. The state is unchanged. Safe: the model stops where a lenient bus might go on (D5). -/
inductive Fault
  /-- A register-window access of a width other than 4 or at an offset that is no multiple of 4 (R62). Safe. -/
  | registerBusError (a : HostAccess)
  /-- An IMEM access of a width other than 1, 2 or 4, or at an address that is no multiple of it (R63). Safe. -/
  | imemBusError (a : HostAccess)
  /-- A host address in neither range (R61): no CHEQ answers there. DESIGN CHOICE, safe (log entry 8). -/
  | notAddressed (a : HostAccess)
deriving DecidableEq, Repr

/-- Why an instruction is refused. -/
inductive Refusal
  /-- Raised by `exec` for an instruction without a meaning. None is left so. Safe. -/
  | notModelled (mnemonic : String)
deriving DecidableEq, Repr

/-- What a step answers. -/
abbrev Out := Host.Outcome State Fault Refusal

/-- The state a power-on reset leaves (R51, R270), for any parameters and ANY contents of the three arrays the spec
leaves unspecified (R271, U1). -/
def State.powerOn (p : Params) (lut : Vector Byte 256) (kmem : List Half) (imem : Memory) : State where
  params := p
  status := ⟨false, false, false, false, .none⟩
  ier := ⟨false, false, false, false⟩
  cmd := 0
  imgBase := 0
  imgW := 0
  imgH := 0
  ksize := 0
  kdiv := 0
  eqN := 0
  eqCdfMin := 0
  degen := false
  kmem := kmem
  hist := Vector.replicate 256 0
  lut := lut
  imem := imem
  engine := .idle
  script := []
  turns := []
  response := .none
  draws := 0

/-- The machine right after reset, with the test vectors' parameters (log entry 1) and zeros for the contents the
spec leaves unspecified (DESIGN CHOICE, log entry 2). -/
def State.reset : State :=
  State.powerOn Params.vectors (Vector.replicate 256 0) (List.replicate (7 * 7) 0) []

end Sys2Proof.Machine
end

