-- ==== Sys2Proof/Machine/Flags.lean ====
section
/-! DEFINITION. Every flag computation: BUSY, the packing of STATUS and IER, the write-one-to-clear rule, the engine's
and the bus's flag events, and IRQ (spec/10_state.md R31, R32, R36, R38, R46; spec/60_exceptions.md R231, R250). -/

namespace Sys2Proof.Machine

/-- ESTATE = BUSY, shown as STATUS.BUSY (R50). -/
def State.busy (s : State) : Bool :=
  match s.engine with
  | .idle => false
  | .busy _ => true

/-- The number of an error code (R231). -/
def ErrCode.code : ErrCode → BitVec 4
  | .none => 0
  | .illegalCmd => 1
  | .ksizeErr => 2
  | .kdivErr => 3
  | .boundsErr => 4

/-- STATUS as it is read (R31). -/
def Status.toWord (st : Status) (busy : Bool) : Word :=
  0#20 ++ st.errcode.code ++ 0#3 ++ BitVec.ofBool st.haz ++ BitVec.ofBool st.ovr ++ BitVec.ofBool st.err
    ++ BitVec.ofBool st.done ++ BitVec.ofBool busy

/-- STATUS of a state as the host reads it (R31, R50). -/
def State.statusWord (s : State) : Word := s.status.toWord s.busy

/-- A host write to STATUS clears each of the bits 1 to 4 written 1; clearing ERR clears ERRCODE (R31). -/
def Status.clear (st : Status) (v : Word) : Status where
  done := st.done && !v.getLsbD 1
  err := st.err && !v.getLsbD 2
  ovr := st.ovr && !v.getLsbD 3
  haz := st.haz && !v.getLsbD 4
  errcode := if v.getLsbD 2 then .none else st.errcode

/-- IER as it is read: bit 0 and bits 31:5 are 0 (R32). -/
def Ier.toWord (e : Ier) : Word :=
  0#27 ++ BitVec.ofBool e.hazIe ++ BitVec.ofBool e.ovrIe ++ BitVec.ofBool e.errIe ++ BitVec.ofBool e.doneIe ++ 0#1

/-- What a host write leaves in IER (R32, R45). -/
def Ier.ofWord (v : Word) : Ier where
  doneIe := v.getLsbD 1
  errIe := v.getLsbD 2
  ovrIe := v.getLsbD 3
  hazIe := v.getLsbD 4

/-- EQ_STAT as it is read (R36). -/
def eqStatWord (degen : Bool) : Word := 0#31 ++ BitVec.ofBool degen

/-- The interrupt output, a combinational function of STATUS and IER (R38). -/
def State.irq (s : State) : Bool :=
  (s.status.done && s.ier.doneIe) || (s.status.err && s.ier.errIe)
    || (s.status.ovr && s.ier.ovrIe) || (s.status.haz && s.ier.hazIe)

/-- Acceptance clears DONE and nothing else (R212). -/
def Status.accepted (st : Status) : Status := { st with done := false }

/-- Completion sets DONE and nothing else (R214). -/
def Status.completed (st : Status) : Status := { st with done := true }

/-- Rejection sets ERR and ERRCODE and nothing else (R236). -/
def Status.rejected (st : Status) (code : ErrCode) : Status := { st with err := true, errcode := code }

/-- A dropped CMD write sets OVR and nothing else (R216). -/
def Status.dropped (st : Status) : Status := { st with ovr := true }

/-- A refused access sets HAZ and nothing else (R281). -/
def Status.hazarded (st : Status) : Status := { st with haz := true }

end Sys2Proof.Machine
end

