-- ==== Sys2Proof/Machine/Operands.lean ====
section
/-! DEFINITION. Every operand form: reading image memory, the latched image and kernel (spec/30_encoding.md R94,
spec/20_memory.md R64, R70, R71), the rounding and clamping primitives (spec/00_scope.md R10, R11), and what kind of
command a word names. -/

namespace Sys2Proof.Machine

/-- What a command does (R95): the three families, with FMT and PRESET where the command has them. -/
inductive Operation
  | nop
  | conv (f : Format)
  | histo (f : Format)
  | eqlut
  | lutap (f : Format)
  | equal (f : Format)
  | loadk
deriving DecidableEq, Repr

/-- The operation of each command (R95, R96). -/
def operationOf : Instr → Operation
  | .nop => .nop
  | .convG => .conv .gray
  | .convC => .conv .color
  | .histoG => .histo .gray
  | .histoC => .histo .color
  | .eqlut => .eqlut
  | .lutapG => .lutap .gray
  | .lutapC => .lutap .color
  | .equalG => .equal .gray
  | .equalC => .equal .color
  | .loadkBox => .loadk
  | .loadkGauss => .loadk
  | .loadkSharpen => .loadk
  | .loadkOutline => .loadk
  | .loadkEmboss => .loadk

/-- The format of an image command; none for NOP, EQLUT and LOADK, which have no image (R70, R92). -/
def imageFormat (i : Instr) : Option Format :=
  match operationOf i with
  | .conv f => some f
  | .histo f => some f
  | .lutap f => some f
  | .equal f => some f
  | .nop => none
  | .eqlut => none
  | .loadk => none

/-- Whether the kernel checks apply: CONV only (R237). -/
def isConv (i : Instr) : Bool :=
  match operationOf i with
  | .conv _ => true
  | _ => false

/-- Bytes per pixel (R24). -/
def bpp : Format → Nat
  | .gray => 1
  | .color => 3

/-- One byte of image memory (R12): the entry at the address, or what an unlisted address reads as. -/
def Memory.read : Memory → Nat → Byte
  | [], _ => Memory.unlisted
  | (a, b) :: rest, addr => if addr = a then b else Memory.read rest addr

/-- MemRead (R64): the bytes from `addr` up, the lowest address in the low byte. -/
def Memory.readN (m : Memory) (addr n : Nat) : Nat :=
  ((List.range n).map fun i => (m.read (addr + i)).toNat * 2 ^ (8 * i)).sum

/-- `(x, y)` for every column below `w` and row below `h`, row by row from the top. -/
def coords (w h : Nat) : List (Nat × Nat) :=
  (List.range h).flatMap fun y => (List.range w).map fun x => (x, y)

/-- Every pixel of the latched image. -/
def Latch.pixels (l : Latch) : List (Nat × Nat) := coords l.imgW.toNat l.imgH.toNat

/-- The image-memory address of channel `c` of pixel `(x, y)` (R71). -/
def Latch.pix (l : Latch) (f : Format) (x y c : Nat) : Nat :=
  l.imgBase.toNat + (y * l.imgW.toNat + x) * bpp f + c

/-- The snapshot byte P0 (R14). -/
def Latch.p0 (l : Latch) (f : Format) (x y c : Nat) : Byte := l.snapshot.read (l.pix f x y c)

/-- How many bytes an image of this size has (R70). -/
def imageBytes (f : Format) (w h : Half) : Nat := w.toNat * h.toNat * bpp f

/-- The half-width n = (k − 1) div 2 (R94). -/
def Latch.half (l : Latch) : Nat := (l.ksize.toNat - 1) / 2

/-- A pixel at least n from every edge (R123). -/
def Latch.interior (l : Latch) (x y : Nat) : Bool :=
  l.half ≤ x && x + l.half < l.imgW.toNat && l.half ≤ y && y + l.half < l.imgH.toNat

/-- Every interior pixel (R123). -/
def Latch.interiorPixels (l : Latch) : List (Nat × Nat) :=
  l.pixels.filter fun p => l.interior p.1 p.2

/-- KMEM[i], sign-extended (R94, R120). -/
def kernelWeight (kmem : List Half) (i : Nat) : Int := (kmem.getD i 0).toInt

/-- A pixel byte, zero-extended (R94), as an integer. -/
def sample (b : Byte) : Int := (b.toNat : Int)

/-- `rnd(S, D)`, the nearest integer to S/D, a half rounding up (R10); `/` is floor division for D ≥ 1 (R9). -/
def rnd (s d : Int) : Int := (2 * s + d) / (2 * d)

/-- `clamp8` (R11). -/
def clamp8 (v : Int) : Int := min 255 (max 0 v)

/-- `clamp_round` (R11) as the byte it is stored in. -/
def clampRound (s d : Int) : Byte := BitVec.ofInt 8 (clamp8 (rnd s d))

/-- LUT[b] (R94). -/
def lutAt (lut : Vector Byte 256) (b : Byte) : Byte := lut[b.toNat]'b.isLt

end Sys2Proof.Machine
end

