-- ==== Sys2Proof/Machine/Ops.lean ====
section
/-! DEFINITION. The named operations over memory and registers: writing image memory (spec/20_memory.md R64), issue,
acceptance, completion (spec/42_control.md R211 to R214), the rejection, which is CHEQ's taking of an exception
(spec/60_exceptions.md R236), the return from it (R251), dropped and refused accesses (R216, R281), and the soft
reset (R218, R219). -/

namespace Sys2Proof.Machine

/-- Write one byte, keeping the canonical form. -/
def Memory.write : Memory → Nat → Byte → Memory
  | [], addr, v => if v = Memory.unlisted then [] else [(addr, v)]
  | (a, b) :: rest, addr, v =>
    if addr < a then (if v = Memory.unlisted then (a, b) :: rest else (addr, v) :: (a, b) :: rest)
    else if addr = a then (if v = Memory.unlisted then rest else (a, v) :: rest)
    else (a, b) :: Memory.write rest addr v

/-- Write each cell in turn. -/
def Memory.writeCells (m : Memory) (cells : List Host.Cell) : Memory :=
  cells.foldl (fun acc cell => acc.write cell.1 cell.2) m

/-- MemWrite (R64): byte i of the value goes to `addr + i`. -/
def Memory.writeN (m : Memory) (addr n : Nat) (v : Word) : Memory :=
  m.writeCells ((List.range n).map fun i => (addr + i, v.extractLsb' (8 * i) 8))

/-- The kernel checks of R237, first KSIZE, then KDIV (R233, R234). -/
def kernelCheck (s : State) : ErrCode :=
  if s.ksize.toNat % 2 = 0 ∨ s.params.kmax < s.ksize.toNat then .ksizeErr
  else if s.kdiv = 0 then .kdivErr
  else .none

/-- The bounds check of R237 (R72, R235). -/
def boundsCheck (f : Format) (s : State) : ErrCode :=
  if s.params.imemSize < s.imgBase.toNat + imageBytes f s.imgW s.imgH then .boundsErr else .none

/-- The checks of a decoded command, in the fixed order of R237; the first that fails gives the code. -/
def check (i : Instr) (s : State) : ErrCode :=
  let kernel := if isConv i then kernelCheck s else .none
  if kernel ≠ .none then kernel
  else match imageFormat i with
    | some f => boundsCheck f s
    | none => .none

/-- Taking CHEQ's one exception, the command rejection: ERR and ERRCODE, and nothing else (R236). -/
def State.reject (s : State) (code : ErrCode) : State := { s with status := s.status.rejected code }

/-- CHEQ's return from it: the host's W1C write to STATUS, which restores nothing (R251, R31). -/
def State.writeStatus (s : State) (v : Word) : State := { s with status := s.status.clear v }

/-- What acceptance copies (R212). -/
def latchOf (i : Instr) (s : State) : Latch where
  instr := i
  imgBase := s.imgBase
  imgW := s.imgW
  imgH := s.imgH
  ksize := s.ksize
  kdiv := s.kdiv
  snapshot := s.imem

/-- Acceptance (R212). -/
def State.accept (s : State) (i : Instr) : State :=
  { s with engine := .busy (latchOf i s), status := s.status.accepted }

/-- Completion, after the command's writes (R214). -/
def State.complete (s : State) : State := { s with engine := .idle, status := s.status.completed }

/-- Issue of a decoded command to an idle engine: accepted, or rejected with one code (R211, R237). -/
def State.issue (s : State) (i : Instr) : State :=
  match check i s with
  | .none => s.accept i
  | code => s.reject code

/-- The life of a command as its meaning sees it. On an idle engine the command is issued: checked, then accepted or
rejected (R211). On a busy engine it is executed and completed, `effect` being the writes that its rule gives as a
function of LATCH and the state (R213, R214). A CMD write while busy never comes here: it is dropped (log entry 11). -/
def lifecycle (i : Instr) (effect : Latch → State → State) (s : State) : Out :=
  match s.engine with
  | .idle => .next (s.issue i)
  | .busy l => .next (effect l s).complete

/-- A CMD write while busy is dropped: OVR, and nothing else (R216). -/
def State.drop (s : State) : State := { s with status := s.status.dropped }

/-- A host read the busy engine refuses: HAZ, and a free value on the bus, of the access's width (R281, U2). -/
def State.refuseRead (s : State) (width : Nat) : State :=
  { s with
    status := s.status.hazarded
    response := .data (((Config.freeReadWord s.draws).setWidth (8 * width)).setWidth 32)
    draws := s.draws + 1 }

/-- A host write the busy engine refuses: HAZ, and no other effect (R281, U3). -/
def State.refuseWrite (s : State) : State :=
  { s with status := s.status.hazarded, response := .written }

/-- The image-memory addresses an aborted command would have written (R219): the interior of a convolution, the whole
region of LUTAP and EQUAL, none of the others. -/
def abortedAddresses (l : Latch) : List Nat :=
  match operationOf l.instr with
  | .conv f => l.interiorPixels.flatMap fun p => (List.range (bpp f)).map fun c => l.pix f p.1 p.2 c
  | .lutap f => (List.range (imageBytes f l.imgW l.imgH)).map fun k => l.imgBase.toNat + k
  | .equal f => (List.range (imageBytes f l.imgW l.imgH)).map fun k => l.imgBase.toNat + k
  | .nop => []
  | .histo _ => []
  | .eqlut => []
  | .loadk => []

/-- Whether an aborted command would have written LUT (R219). -/
def abortsLut (i : Instr) : Bool :=
  match operationOf i with
  | .eqlut => true
  | .equal _ => true
  | _ => false

/-- Whether an aborted command would have written KMEM[0..8] (R219). -/
def abortsKmem (i : Instr) : Bool :=
  match operationOf i with
  | .loadk => true
  | _ => false

/-- Write the first entries of KMEM. -/
def kmemLoad (kmem : List Half) (ws : List Half) : List Half :=
  (List.range kmem.length).map fun i => if i < ws.length then ws.getD i 0 else kmem.getD i 0

/-- The abort of the command in flight: every location it would have written takes a free value, one draw a location;
every other location is unchanged (R219, R273). -/
def State.abort (s : State) (l : Latch) : State :=
  { s with
    imem := s.imem.writeCells ((abortedAddresses l).map fun a => (a, Config.freeImemByte s.draws a))
    lut := if abortsLut l.instr then Vector.ofFn (fun j => Config.freeLutEntry s.draws j.val) else s.lut
    kmem := if abortsKmem l.instr then kmemLoad s.kmem ((List.range 9).map (Config.freeKmemEntry s.draws)) else s.kmem
    draws := s.draws + 1 }

/-- The register part of a soft reset (R218). -/
def State.resetRegisters (s : State) : State :=
  { s with
    status := ⟨false, false, false, false, .none⟩
    ier := ⟨false, false, false, false⟩
    cmd := 0
    imgBase := 0
    imgW := 0
    imgH := 0
    ksize := 0
    kdiv := 0
    eqN := 0
    eqCdfMin := 0
    degen := false
    hist := Vector.replicate 256 0
    engine := .idle }

/-- A soft reset: while idle it leaves LUT, KMEM and IMEM unchanged (R218, R272); while busy it also aborts (R219). -/
def State.softReset (s : State) : State :=
  match s.engine with
  | .idle => s.resetRegisters
  | .busy l => (s.abort l).resetRegisters

end Sys2Proof.Machine
end

