-- ==== Sys2Proof/Machine/Control.lean ====
section
/-! DEFINITION. The control family (spec/42_control.md): NOP. -/

namespace Sys2Proof.Machine

/-- NOP: does nothing and completes (R210). -/
def execNop (s : State) : Out := lifecycle .nop (fun _ t => t) s

end Sys2Proof.Machine
end

