-- ==== Sys2Proof/Machine/Convolution.lean ====
section
/-! DEFINITION. The convolution family (spec/40_convolution.md): CONV.G, CONV.C and LOADK. -/

namespace Sys2Proof.Machine

/-- The exact sum S(x, y, c) of R121: kernel row r and column c₂ multiply the snapshot pixel at row y + (r − n) and
column x + (c₂ − n). The kernel is not flipped (R122). -/
def convSum (l : Latch) (f : Format) (kmem : List Half) (x y c : Nat) : Int :=
  ((coords l.ksize.toNat l.ksize.toNat).map fun rc =>
    kernelWeight kmem (rc.2 * l.ksize.toNat + rc.1)
      * sample (l.p0 f (x + rc.1 - l.half) (y + rc.2 - l.half) c)).sum

/-- The bytes a convolution writes: each channel of each interior pixel gets `clamp_round(S, D)` (R123). -/
def convCells (l : Latch) (f : Format) (kmem : List Half) : List Host.Cell :=
  l.interiorPixels.flatMap fun p => (List.range (bpp f)).map fun c =>
    (l.pix f p.1 p.2 c, clampRound (convSum l f kmem p.1 p.2 c) l.kdiv.toNat)

/-- The effect of CONV: the interior in place, from the snapshot (R124, R125). -/
def convolve (f : Format) (l : Latch) (s : State) : State :=
  { s with imem := s.imem.writeCells (convCells l f s.kmem) }

/-- CONV.G (R124). -/
def execConvG (s : State) : Out := lifecycle .convG (convolve .gray) s

/-- CONV.C (R125). -/
def execConvC (s : State) : Out := lifecycle .convC (convolve .color) s

/-- Catalog preset 0 (R130). -/
def boxTable : KernelTable := ⟨#v[1, 1, 1, 1, 1, 1, 1, 1, 1], 9⟩

/-- Catalog preset 1 (R130; spec/90_conflicts.md C1). -/
def gaussTable : KernelTable := ⟨#v[1, 2, 1, 2, 4, 2, 1, 2, 1], 16⟩

/-- The effect of LOADK: KMEM[0..8], KSIZE = 3 and KDIV, all at completion (R132, R283). -/
def loadKernel (t : KernelTable) (s : State) : State :=
  { s with kmem := kmemLoad s.kmem t.weights.toList, ksize := 3, kdiv := t.divisor }

/-- LOADK BOX (R132). -/
def execLoadkBox (s : State) : Out := lifecycle .loadkBox (fun _ t => loadKernel boxTable t) s

/-- LOADK GAUSS (R132). -/
def execLoadkGauss (s : State) : Out := lifecycle .loadkGauss (fun _ t => loadKernel gaussTable t) s

/-- LOADK SHARPEN, its table a parameter (R131, R132). -/
def execLoadkSharpen (s : State) : Out := lifecycle .loadkSharpen (fun _ t => loadKernel t.params.presetW2 t) s

/-- LOADK OUTLINE, its table a parameter (R131, R132). -/
def execLoadkOutline (s : State) : Out := lifecycle .loadkOutline (fun _ t => loadKernel t.params.presetW3 t) s

/-- LOADK EMBOSS, its table a parameter (R131, R132). -/
def execLoadkEmboss (s : State) : Out := lifecycle .loadkEmboss (fun _ t => loadKernel t.params.presetW4 t) s

end Sys2Proof.Machine
end

