-- ==== Sys2Proof/Machine/Histogram.lean ====
section
/-! DEFINITION. The histogram, remap and projection family (spec/41_histogram.md): HISTO, EQLUT, LUTAP and EQUAL. -/

namespace Sys2Proof.Machine

/-- Ynum, 10^5 times the exact luma (R164, R180). -/
def lumaNum (b g r : Byte) : Int := 29900 * sample r + 58700 * sample g + 11400 * sample b

/-- Yr, the rounded luma (R164). -/
def lumaKey (b g r : Byte) : Byte := clampRound (lumaNum b g r) 100000

/-- Unum, 10^5 times the exact U (R180). -/
def uNum (b g r : Byte) : Int := -14713 * sample r - 28886 * sample g + 43600 * sample b

/-- Vnum, 10^5 times the exact V (R180). -/
def vNum (b g r : Byte) : Int := 61500 * sample r - 51499 * sample g - 10001 * sample b

/-- The denominator E = 10^10 of the backward conversion (R182). -/
def projDen : Int := 10000000000

/-- The three channels of one pixel, blue, green, red (R24). -/
structure Bgr where
  b : Byte
  g : Byte
  r : Byte
deriving DecidableEq, Repr

/-- The backward conversion, each channel rounded and clamped once (R182). -/
def backward (yq : Byte) (u v : Int) : Bgr where
  b := clampRound (sample yq * projDen + 203211 * u) projDen
  g := clampRound (sample yq * projDen - 39465 * u - 58060 * v) projDen
  r := clampRound (sample yq * projDen + 113983 * v) projDen

/-- Proj_L (R183): the luma goes through the table, U and V are kept exactly (R181). -/
def project (lut : Vector Byte 256) (p : Bgr) : Bgr :=
  backward (lutAt lut (lumaKey p.b p.g p.r)) (uNum p.b p.g p.r) (vNum p.b p.g p.r)

/-- The snapshot pixel of a color image (R24). -/
def Latch.bgr (l : Latch) (x y : Nat) : Bgr where
  b := l.p0 .color x y 0
  g := l.p0 .color x y 1
  r := l.p0 .color x y 2

/-- The histogram bin of a pixel (R160). -/
def pixelKey (l : Latch) : Format → Nat × Nat → Byte
  | .gray, p => l.p0 .gray p.1 p.2 0
  | .color, p => lumaKey (l.bgr p.1 p.2).b (l.bgr p.1 p.2).g (l.bgr p.1 p.2).r

/-- HIST[k] <- HIST[k] + 1. -/
def bump (h : Vector Word 256) (k : Byte) : Vector Word 256 :=
  h.set k.toNat (h[k.toNat]'k.isLt + 1) k.isLt

/-- Histogram accumulation: clear, then count every pixel once (R161). -/
def accumulate (f : Format) (l : Latch) : Vector Word 256 :=
  (l.pixels.map (pixelKey l f)).foldl bump (Vector.replicate 256 0)

/-- cdf[i], the sum of HIST[0] to HIST[i] (R170), an exact integer (R9). -/
def cdf (h : Vector Word 256) (i : Nat) : Nat := ((h.toList.take (i + 1)).map BitVec.toNat).sum

/-- N, the histogram total (R170). -/
def histTotal (h : Vector Word 256) : Nat := cdf h 255

/-- The smallest occupied bin m, if any (R171). -/
def firstOccupied (h : Vector Word 256) : Option Nat := h.toList.findIdx? fun c => c != 0

/-- cdf_min (R171): 0 for an empty histogram, else cdf[m]. -/
def cdfMin (h : Vector Word 256) : Nat :=
  match firstOccupied h with
  | none => 0
  | some m => cdf h m

/-- The degenerate case of R172. -/
def degenerate (h : Vector Word 256) : Bool := histTotal h == 0 || histTotal h - cdfMin h == 0

/-- The remap table of R172. -/
def remapTable (h : Vector Word 256) : Vector Byte 256 :=
  if degenerate h then Vector.ofFn fun i => BitVec.ofNat 8 i.val
  else Vector.ofFn fun i =>
    if cdf h i.val = 0 then 0
    else BitVec.ofInt 8 (rnd (((cdf h i.val : Int) - (cdfMin h : Int)) * 255) ((histTotal h : Int) - (cdfMin h : Int)))

/-- The effect of EQLUT: LUT, EQ_N, EQ_CDFMIN and EQ_STAT from HIST (R170 to R173). -/
def buildTable (s : State) : State :=
  { s with
    lut := remapTable s.hist
    eqN := BitVec.ofNat 32 (histTotal s.hist)
    eqCdfMin := BitVec.ofNat 32 (cdfMin s.hist)
    degen := degenerate s.hist }

/-- The bytes LUTAP writes: LUT of each sample (R185), or the projection of each pixel (R186). -/
def lutCells (lut : Vector Byte 256) (l : Latch) : Format → List Host.Cell
  | .gray => l.pixels.map fun p => (l.pix .gray p.1 p.2 0, lutAt lut (l.p0 .gray p.1 p.2 0))
  | .color => l.pixels.flatMap fun p =>
      let q := project lut (l.bgr p.1 p.2)
      [(l.pix .color p.1 p.2 0, q.b), (l.pix .color p.1 p.2 1, q.g), (l.pix .color p.1 p.2 2, q.r)]

/-- The effect of HISTO: HIST only (R162, R163). -/
def histogram (f : Format) (l : Latch) (s : State) : State := { s with hist := accumulate f l }

/-- The effect of LUTAP: the image region only (R185, R186). -/
def applyTable (f : Format) (l : Latch) (s : State) : State :=
  { s with imem := s.imem.writeCells (lutCells s.lut l f) }

/-- The effect of EQUAL: accumulate, build, apply, on the same latched operands and the same snapshot (R190, R191). -/
def equalize (f : Format) (l : Latch) (s : State) : State :=
  applyTable f l (buildTable (histogram f l s))

/-- HISTO.G (R162). -/
def execHistoG (s : State) : Out := lifecycle .histoG (histogram .gray) s

/-- HISTO.C (R163). -/
def execHistoC (s : State) : Out := lifecycle .histoC (histogram .color) s

/-- EQLUT (R173). -/
def execEqlut (s : State) : Out := lifecycle .eqlut (fun _ t => buildTable t) s

/-- LUTAP.G (R185). -/
def execLutapG (s : State) : Out := lifecycle .lutapG (applyTable .gray) s

/-- LUTAP.C (R186). -/
def execLutapC (s : State) : Out := lifecycle .lutapC (applyTable .color) s

/-- EQUAL.G (R190). -/
def execEqualG (s : State) : Out := lifecycle .equalG (equalize .gray) s

/-- EQUAL.C (R191). -/
def execEqualC (s : State) : Out := lifecycle .equalC (equalize .color) s

end Sys2Proof.Machine
end

