-- ==== Sys2Proof/Machine/Dispatch.lean ====
section
/-! DEFINITION. The meaning of every command, one arm a constructor of `Instr`. -/

namespace Sys2Proof.Machine

def exec (i : Instr) (s : State) : Host.Outcome State Fault Refusal :=
  match i with
  | .nop => Sys2Proof.Machine.execNop s
  | .convG => Sys2Proof.Machine.execConvG s
  | .convC => Sys2Proof.Machine.execConvC s
  | .histoG => Sys2Proof.Machine.execHistoG s
  | .histoC => Sys2Proof.Machine.execHistoC s
  | .eqlut => Sys2Proof.Machine.execEqlut s
  | .lutapG => Sys2Proof.Machine.execLutapG s
  | .lutapC => Sys2Proof.Machine.execLutapC s
  | .equalG => Sys2Proof.Machine.execEqualG s
  | .equalC => Sys2Proof.Machine.execEqualC s
  | .loadkBox => Sys2Proof.Machine.execLoadkBox s
  | .loadkGauss => Sys2Proof.Machine.execLoadkGauss s
  | .loadkSharpen => Sys2Proof.Machine.execLoadkSharpen s
  | .loadkOutline => Sys2Proof.Machine.execLoadkOutline s
  | .loadkEmboss => Sys2Proof.Machine.execLoadkEmboss s

end Sys2Proof.Machine
end

