-- ==== Sys2Proof/Machine/HostPort.lean ====
section
/-! DEFINITION. The host's side: routing a host address (spec/20_memory.md R61), the register window (spec/10_state.md
R22 to R45), image memory (R62 to R66), the busy refusals (spec/70_reset_and_hazards.md R281), the issue of a command
word (spec/42_control.md R211, R216), the lines of a script, and whose turn it is (spec/00_scope.md R6). -/

namespace Sys2Proof.Machine

/-- Where a host address lies (R61). -/
inductive Target
  | register (offset : Nat)
  | imem (address : Nat)
deriving DecidableEq, Repr

/-- R61: the range that a host address selects, and the offset or address in it. -/
def route (p : Params) (addr : Nat) : Option Target :=
  if p.regBase ≤ addr ∧ addr < p.regBase + 0x1000 then some (.register (addr - p.regBase))
  else if p.imemBase ≤ addr ∧ addr < p.imemBase + p.imemSize then some (.imem (addr - p.imemBase))
  else none

/-- What a word-aligned offset selects (R22); anything else in the window is reserved (R37). -/
def regAt (kmax offset : Nat) : Reg :=
  if h : 0x400 ≤ offset ∧ offset < 0x800 then .hist ⟨(offset - 0x400) / 4, by omega⟩
  else if h : 0x800 ≤ offset ∧ offset < 0x900 then .lutw ⟨(offset - 0x800) / 4, by omega⟩
  else if 0xC00 ≤ offset ∧ offset < 0xC00 + 4 * (kmax * kmax) then .kmem ((offset - 0xC00) / 4)
  else match offset with
    | 0x000 => .id
    | 0x004 => .caps
    | 0x008 => .ctrl
    | 0x00C => .status
    | 0x010 => .ier
    | 0x014 => .cmd
    | 0x018 => .imgBase
    | 0x01C => .imgW
    | 0x020 => .imgH
    | 0x024 => .ksize
    | 0x028 => .kdiv
    | 0x02C => .eqN
    | 0x030 => .eqCdfMin
    | 0x034 => .eqStat
    | _ => .reserved offset

/-- The offset of a name of the register window (R22, R44, R100). -/
def regOffset : Reg → Nat
  | .id => 0x000
  | .caps => 0x004
  | .ctrl => 0x008
  | .status => 0x00C
  | .ier => 0x010
  | .cmd => 0x014
  | .imgBase => 0x018
  | .imgW => 0x01C
  | .imgH => 0x020
  | .ksize => 0x024
  | .kdiv => 0x028
  | .eqN => 0x02C
  | .eqCdfMin => 0x030
  | .eqStat => 0x034
  | .hist i => 0x400 + 4 * i.val
  | .lutw j => 0x800 + 4 * j.val
  | .kmem i => 0xC00 + 4 * i
  | .reserved offset => offset

/-- ID (R23). -/
def idWord : Word := 0x43480100

/-- CAPS (R25). -/
def capsWord (p : Params) : Word := 0#18 ++ BitVec.ofNat 6 p.imemAw ++ 0#4 ++ BitVec.ofNat 4 p.kmax

/-- Four LUT entries as one word, the lowest index in the low byte (R44). -/
def lutWord (lut : Vector Byte 256) (j : Fin 64) : Word :=
  lut[4 * j.val + 3] ++ lut[4 * j.val + 2] ++ lut[4 * j.val + 1] ++ lut[4 * j.val]

/-- A write to the LUT window sets four entries (R44). -/
def lutWriteWord (lut : Vector Byte 256) (j : Fin 64) (v : Word) : Vector Byte 256 :=
  Vector.ofFn fun i => if i.val / 4 = j.val then v.extractLsb' (8 * (i.val % 4)) 8 else lut[i]

/-- What a read of the register window returns (R23 to R37, R44). -/
def readReg (s : State) : Reg → Word
  | .id => idWord
  | .caps => capsWord s.params
  | .ctrl => 0
  | .status => s.statusWord
  | .ier => s.ier.toWord
  | .cmd => s.cmd
  | .imgBase => s.imgBase
  | .imgW => s.imgW.setWidth 32
  | .imgH => s.imgH.setWidth 32
  | .ksize => s.ksize.setWidth 32
  | .kdiv => s.kdiv.setWidth 32
  | .eqN => s.eqN
  | .eqCdfMin => s.eqCdfMin
  | .eqStat => eqStatWord s.degen
  | .hist i => s.hist[i]
  | .lutw j => lutWord s.lut j
  | .kmem i => (s.kmem.getD i 0).signExtend 32
  | .reserved _ => 0

/-- A host write of `w` to CMD: dropped while busy (R216); while idle stored and issued, an illegal word being rejected
with ILLEGAL_CMD (R211, R232, R237). -/
def writeCmd (s : State) (w : Word) : Out :=
  match s.engine with
  | .busy _ => .next s.drop
  | .idle =>
    match decode w with
    | .error _ => .next ({ s with cmd := w }.reject .illegalCmd)
    | .ok i => exec i { s with cmd := w }

/-- A host write to CTRL: bit 0 performs a soft reset, the other bits are ignored (R26). -/
def writeCtrl (s : State) (v : Word) : State := if v.getLsbD 0 then s.softReset else s

/-- A host write to the register window (R26 to R37, R44, R45). -/
def writeReg (s : State) (v : Word) : Reg → Out
  | .id => .next s
  | .caps => .next s
  | .ctrl => .next (writeCtrl s v)
  | .status => .next (s.writeStatus v)
  | .ier => .next { s with ier := Ier.ofWord v }
  | .cmd => writeCmd s v
  | .imgBase => .next { s with imgBase := BitVec.ofNat 32 (v.toNat % s.params.imemSize) }
  | .imgW => .next { s with imgW := v.setWidth 16 }
  | .imgH => .next { s with imgH := v.setWidth 16 }
  | .ksize => .next { s with ksize := v.setWidth 4 }
  | .kdiv => .next { s with kdiv := v.setWidth 16 }
  | .eqN => .next s
  | .eqCdfMin => .next s
  | .eqStat => .next s
  | .hist _ => .next s
  | .lutw j => .next { s with lut := lutWriteWord s.lut j v }
  | .kmem i => .next { s with kmem := s.kmem.set i (v.setWidth 16) }
  | .reserved _ => .next s

/-- The windows the engine owns while busy: HIST, LUT and KMEM. Reserved offsets are never refused, those above the
KMEM entries included (R281, R37; log entry 7). -/
def isArray : Reg → Bool
  | .hist _ => true
  | .lutw _ => true
  | .kmem _ => true
  | _ => false

/-- An aligned 32-bit access to the register window. -/
def accessReg (s : State) (r : Reg) (k : AccessKind) : Out :=
  if s.busy && isArray r then
    match k with
    | .read => .next (s.refuseRead 4)
    | .write _ => .next s.refuseWrite
  else
    match k with
    | .read => .next { s with response := .data (readReg s r) }
    | .write v => writeReg { s with response := .written } v r

/-- An aligned access to image memory (R63, R64), refused while busy (R281). -/
def accessImem (s : State) (addr width : Nat) (k : AccessKind) : Out :=
  if s.busy then
    match k with
    | .read => .next (s.refuseRead width)
    | .write _ => .next s.refuseWrite
  else
    match k with
    | .read => .next { s with response := .data (BitVec.ofNat 32 (s.imem.readN addr width)) }
    | .write v => .next { s with imem := s.imem.writeN addr width v, response := .written }

/-- One host transaction. A wrong width or alignment is a bus error before anything else (R62, R63, R65; log
entry 9). -/
def hostAccess (s : State) (a : HostAccess) : Out :=
  match route s.params a.addr with
  | none => .fault (.notAddressed a)
  | some (.register offset) =>
    if a.registerAligned offset then accessReg s (regAt s.params.kmax offset) a.kind
    else .fault (.registerBusError a)
  | some (.imem address) =>
    if a.imemAligned address then accessImem s address a.width a.kind
    else .fault (.imemBusError a)

/-- One step of the host on its next line. `wait` reads STATUS and stays while bit 0 reads 1 (R101); `takeIrq` stays
while IRQ is low (R83). -/
def hostStep (s : State) : Out :=
  match s.script with
  | [] => .next s
  | .access a :: rest => hostAccess { s with script := rest } a
  | .wait :: rest =>
    .next { s with
      response := .data s.statusWord
      script := if s.statusWord.getLsbD 0 then s.script else rest }
  | .takeIrq :: rest => .next { s with script := if s.irq then rest else s.script }

/-- One step of the engine: the command in flight executes and completes (R214); none is enabled while idle. -/
def engineStep (s : State) : Out :=
  match s.engine with
  | .idle => .next s
  | .busy l => exec l.instr s

/-- Who moves: the engine can while busy, the host while its script has a line. Where both can, `turns` says; with no
entry left the engine moves, so that completion comes in finite time (R285, U13; log entry 3). -/
def mover (s : State) : Option Agent :=
  match s.engine, s.script with
  | .idle, [] => none
  | .idle, _ :: _ => some .host
  | .busy _, [] => some .engine
  | .busy _, _ :: _ => some (s.turns.headD .engine)

/-- Use up one entry of `turns` where both agents could move. -/
def takeTurn (s : State) : State :=
  match s.engine, s.script with
  | .busy _, _ :: _ => { s with turns := s.turns.tail }
  | _, _ => s

/-- One step of CHEQ with its host. With the engine idle and the script at its end it waits (R274). -/
def machineStep (s : State) : Out :=
  match mover s with
  | none => .next s
  | some .host => hostStep (takeTurn s)
  | some .engine => engineStep (takeTurn s)

/-- The host transaction that issues a word: a 32-bit write to CMD (R33, R90). -/
def cmdWrite (p : Params) (w : Word) : HostLine := .access ⟨p.regBase + regOffset .cmd, 4, .write w⟩

end Sys2Proof.Machine
end

