-- ==== Sys2Proof/Machine/Script.lean ====
section
/-! DEFINITION. The host-script syntax of spec/30_encoding.md: the transactions of R100 and the pseudo-instructions of
R101, as functions that build script lines. -/

namespace Sys2Proof.Machine

/-- `wr` at an offset (R100). -/
def wrAt (p : Params) (offset : Nat) (v : Word) : HostLine := .access ⟨p.regBase + offset, 4, .write v⟩

/-- `rd` at an offset (R100). -/
def rdAt (p : Params) (offset : Nat) : HostLine := .access ⟨p.regBase + offset, 4, .read⟩

/-- `wr NAME, v` (R100). -/
def wr (p : Params) (r : Reg) (v : Word) : HostLine := wrAt p (regOffset r) v

/-- `rd NAME` (R100). -/
def rd (p : Params) (r : Reg) : HostLine := rdAt p (regOffset r)

/-- `sb`, `sh` and `sw`, by width (R100). -/
def storeImem (p : Params) (width addr : Nat) (v : Word) : HostLine := .access ⟨p.imemBase + addr, width, .write v⟩

/-- `lb`, `lh` and `lw`, by width (R100). -/
def loadImem (p : Params) (width addr : Nat) : HostLine := .access ⟨p.imemBase + addr, width, .read⟩

/-- `cmd MNEMONIC` (R101). -/
def cmdLine (p : Params) (i : Instr) : List HostLine := [cmdWrite p (encode i)]

/-- `wait` (R101). -/
def waitLine : List HostLine := [.wait]

/-- `clr` (R101). -/
def clrLine (p : Params) : List HostLine := [wr p .status 0x1E]

/-- `setimg a, w, h` (R101). -/
def setimg (p : Params) (a w h : Word) : List HostLine := [wr p .imgBase a, wr p .imgW w, wr p .imgH h]

/-- `setk k, d, w0, …` (R101). -/
def setk (p : Params) (k d : Word) (ws : List Word) : List HostLine :=
  wr p .ksize k :: wr p .kdiv d :: ws.zipIdx.map fun wi => wr p (.kmem wi.2) wi.1

/-- `srst` (R101). -/
def srst (p : Params) : List HostLine := [wr p .ctrl 1]

/-- `sbytes a, b0, …` (R101). -/
def sbytes (p : Params) (a : Nat) (bs : List Word) : List HostLine :=
  bs.zipIdx.map fun bi => storeImem p 1 (a + bi.2) bi.1

/-- `lbytes a, m` (R101). -/
def lbytes (p : Params) (a m : Nat) : List HostLine := (List.range m).map fun i => loadImem p 1 (a + i)

end Sys2Proof.Machine
end

