-- ==== Sys2Proof/Machine/Step.lean ====
section
/-! DEFINITION. The step of the machine, and how an instruction is placed where the next step fetches it. -/

namespace Sys2Proof.Machine

/-- One step: one host transaction or one engine completion (spec/00_scope.md R6). -/
def step (s : State) : Host.Outcome State Fault Refusal := machineStep s

/-- The state with a command word where the next step takes it: CHEQ fetches no instruction (spec/10_state.md R21); a
command comes by the host's write to CMD, which an idle engine issues (spec/42_control.md R211). So the engine is
idle and that write is the host's next line (log entry 4). -/
def State.withFetchWord (s : State) (nbits w : Nat) : State :=
  { s with
    engine := .idle
    script := cmdWrite s.params (BitVec.ofNat 32 (w % 2 ^ nbits)) :: s.script }

end Sys2Proof.Machine
end

