-- ==== Sys2Proof/Safety.lean ====
section
/-! DEFINITION. What counts as a good state and a safe run, and the frames the statements are written with. -/

namespace Sys2Proof.Machine

/-- The operands of a command in flight passed the checks of R237 at its acceptance. -/
structure Latch.Legal (p : Params) (l : Latch) : Prop where
  /-- IMG_BASE lies in image memory (R28). -/
  base : l.imgBase.toNat < p.imemSize
  /-- A convolution has an odd side of at most KMAX, and a divisor of at least 1 (R233, R234). -/
  kernel : isConv l.instr = true → l.ksize.toNat % 2 = 1 ∧ l.ksize.toNat ≤ p.kmax ∧ l.kdiv ≠ 0
  /-- The image region lies in image memory (R72). -/
  region : ∀ f, imageFormat l.instr = some f → l.imgBase.toNat + imageBytes f l.imgW l.imgH ≤ p.imemSize

/-- The invariant of the machine. -/
structure State.Inv (s : State) : Prop where
  /-- The parameters have values R7 allows. -/
  params : s.params.legal = true
  /-- IMG_BASE holds IMEM_AW bits (R28). -/
  base : s.imgBase.toNat < s.params.imemSize
  /-- KMEM has KMAX² entries (R40). -/
  kmemSize : s.kmem.length = s.params.kmax * s.params.kmax
  /-- Image memory is in canonical form. -/
  memForm : s.imem.wf = true
  /-- Image memory lists no address outside it (R43). -/
  memRange : s.imem.below s.params.imemSize
  /-- ERRCODE is 0 exactly while ERR = 0 (R31). -/
  errcode : s.status.errcode = .none ↔ s.status.err = false
  /-- The histogram total fits 32 bits (R41, R170). -/
  histBound : histTotal s.hist < 2 ^ 32
  /-- While busy: the latched operands passed the checks (R237), the snapshot equals IMEM (R50), DONE is 0 (R212), and
  CMD holds the accepted word (R33, R216). -/
  inFlight : ∀ l, s.engine = .busy l →
    l.Legal s.params ∧ l.snapshot = s.imem ∧ s.status.done = false ∧ s.cmd = encode l.instr

/-- What no command's execution touches (R213): parameters, IER, CMD, the image registers, and the model's own fields. -/
structure SameControl (s t : State) : Prop where
  params : t.params = s.params
  ier : t.ier = s.ier
  cmd : t.cmd = s.cmd
  imgBase : t.imgBase = s.imgBase
  imgW : t.imgW = s.imgW
  imgH : t.imgH = s.imgH
  script : t.script = s.script
  turns : t.turns = s.turns
  response : t.response = s.response
  draws : t.draws = s.draws

/-- The flags of a completion (R214): BUSY cleared, DONE set, the other flags as before. -/
structure Completed (s t : State) : Prop where
  idle : t.engine = .idle
  done : t.status.done = true
  err : t.status.err = s.status.err
  ovr : t.status.ovr = s.status.ovr
  haz : t.status.haz = s.status.haz
  errcode : t.status.errcode = s.status.errcode

/-- The kernel registers and KMEM are as before. -/
structure SameKernel (s t : State) : Prop where
  ksize : t.ksize = s.ksize
  kdiv : t.kdiv = s.kdiv
  kmem : t.kmem = s.kmem

/-- EQ_N, EQ_CDFMIN and EQ_STAT are as before. -/
structure SameEq (s t : State) : Prop where
  eqN : t.eqN = s.eqN
  eqCdfMin : t.eqCdfMin = s.eqCdfMin
  degen : t.degen = s.degen

/-- `t` is reached from `s` in `k` steps, none of which stops. -/
def Reaches : Nat → State → State → Prop
  | 0, s, t => s = t
  | k + 1, s, t => ∃ u, step s = .next u ∧ Reaches k u t

/-- A script line that is neither a bus error nor a soft reset: its access is routed, aligned, and no write to CTRL
with bit 0 set. -/
def harmlessLine (p : Params) : HostLine → Bool
  | .wait => true
  | .takeIrq => true
  | .access a =>
    match route p a.addr with
    | none => false
    | some (.imem address) => a.imemAligned address
    | some (.register offset) => a.registerAligned offset &&
      match a.kind with
      | .read => true
      | .write v => !(regAt p.kmax offset == .ctrl && v.getLsbD 0)

/-- A safe step goes on. -/
def SafeStep (s : State) : Prop := ∃ t, step s = .next t

end Sys2Proof.Machine
end

