-- ==== Sys2Proof/Certificates/Slice0/Obligations.lean ====
section
/-! DEFINITION. The statements for the provers, from the numbered rules of spec/. Unless a docstring says otherwise a
statement holds in every state, reached by a run or not. `exec` of a command is its issue on an idle engine and its
completion on a busy one (log entry 11). -/

open Sys2Proof Sys2Proof.Machine

/-! ### Encoding -/

/-- One word of each family, written out bit by bit from R91 (RSVD, PRESET, FMT, OP), is its command. -/
def Obligations.LegalWordsDecodeToTheirCommands : Prop :=
  decode 0b000000000000000000000000_000_0_0000 = .ok .nop ∧ decode 0b000000000000000000000000_000_1_0001 = .ok .convC ∧
  decode 0b000000000000000000000000_000_0_0010 = .ok .histoG ∧ decode 0b000000000000000000000000_000_0_0011 = .ok .eqlut ∧
  decode 0b000000000000000000000000_000_1_0100 = .ok .lutapC ∧ decode 0b000000000000000000000000_000_1_0101 = .ok .equalC ∧
  decode 0b000000000000000000000000_100_0_0110 = .ok .loadkEmboss

/-- R96: the fifteen legal words and their commands; there are no others. -/
def Obligations.ExactlyFifteenWordsDecode : Prop :=
  ∀ (w : Word) (i : Instr), decode w = .ok i ↔ (w, i) ∈ ([
    (0x00000000, .nop), (0x00000001, .convG), (0x00000011, .convC), (0x00000002, .histoG), (0x00000012, .histoC),
    (0x00000003, .eqlut), (0x00000004, .lutapG), (0x00000014, .lutapC), (0x00000005, .equalG), (0x00000015, .equalC),
    (0x00000006, .loadkBox), (0x00000026, .loadkGauss), (0x00000046, .loadkSharpen), (0x00000066, .loadkOutline),
    (0x00000086, .loadkEmboss)] : List (Word × Instr))

/-- Decode and encode agree in both directions, so no bit of a word is dropped and no two words are one command. -/
def Obligations.DecodeInvertsEncode : Prop :=
  ∀ (w : Word) (i : Instr), decode w = .ok i ↔ w = encode i

/-- R97: the illegal words are exactly those of the five conditions. -/
def Obligations.IllegalWordsAreTheFiveConditions : Prop :=
  ∀ w : Word, (∃ e, decode w = .error e) ↔
    (w.extractLsb' 8 24 ≠ 0 ∨ 7 ≤ (w.extractLsb' 0 4).toNat ∨
      (w.extractLsb' 0 4 ∈ ([0x0, 0x3, 0x6] : List (BitVec 4)) ∧ w.extractLsb' 4 1 = 1) ∨
      (w.extractLsb' 0 4 ≠ 0x6 ∧ w.extractLsb' 5 3 ≠ 0) ∨
      (w.extractLsb' 0 4 = 0x6 ∧ w.extractLsb' 5 3 ∈ ([5, 6, 7] : List (BitVec 3))))

/-- R90, R64: a command is four bytes, little-endian, whatever follows. -/
def Obligations.BytesOfACommandDecodeToIt : Prop :=
  ∀ (i : Instr) (rest : List Byte), decodeBytes (encodeBytes i ++ rest) = .ok (i, rest)

/-! ### The step and the life of a command -/

/-- R211: the write of a legal word to CMD on an idle engine stores it and runs the command. The script line it uses up
and the bus response are the model's own fields (log entries 4 and 6). -/
def Obligations.StepRunsTheIssuedCommand : Prop :=
  ∀ (s : State) (w : Word) (rest : List HostLine) (i : Instr), s.engine = .idle →
    s.script = .access ⟨s.params.regBase + 0x014, 4, .write w⟩ :: rest → decode w = .ok i →
    step s = exec i { s with script := rest, response := .written, cmd := w }

/-- R213, R214: when the engine moves, the command in flight runs. The model's choice of who moves where both could is
the list `turns`, one entry used up each time (log entry 3). -/
def Obligations.StepRunsTheCommandInFlight : Prop :=
  ∀ (s : State) (l : Latch), s.engine = .busy l →
    (s.script = [] → step s = exec l.instr s) ∧
    (s.script ≠ [] → s.turns.headD .engine = .engine → step s = exec l.instr { s with turns := s.turns.tail })

/-- The model's choice of how a word is placed (log entry 4) and of the bus's answer (log entry 6): the placed word is
the command that the next step runs. -/
def Obligations.StepRunsThePlacedWord : Prop :=
  ∀ (s : State) (nbits w : Nat) (i : Instr), decodeTableWord nbits w = some i →
    step (s.withFetchWord nbits w) =
      exec i { s with engine := .idle, response := .written, cmd := BitVec.ofNat 32 (w % 2 ^ nbits) }

/-- R232, R236: the write of an illegal word to CMD on an idle engine is rejected with ILLEGAL_CMD. -/
def Obligations.IllegalWordIsRejected : Prop :=
  ∀ (s : State) (w : Word) (e : DecodeError), s.engine = .idle → decode w = .error e →
    ∃ r, hostAccess s ⟨s.params.regBase + 0x014, 4, .write w⟩ = .next { s with
      response := r
      cmd := w
      status := { s.status with err := true, errcode := .illegalCmd } }

/-- R216: a CMD write while busy sets OVR and does nothing else, whatever the word. -/
def Obligations.CmdWriteWhileBusyIsDropped : Prop :=
  ∀ (s : State) (l : Latch) (w : Word), s.engine = .busy l →
    ∃ r, hostAccess s ⟨s.params.regBase + 0x014, 4, .write w⟩ =
      .next { s with response := r, status := { s.status with ovr := true } }

/-- R238: one CMD write is accepted, rejected with one code, or dropped; the last exactly while the engine is busy. -/
def Obligations.CmdWriteHasOneOutcome : Prop :=
  ∀ (s : State) (w : Word), ∃ t, hostAccess s ⟨s.params.regBase + 0x014, 4, .write w⟩ = .next t ∧
    ((s.engine = .idle ∧ t.cmd = w ∧
        ((∃ l, t.engine = .busy l ∧ encode l.instr = w ∧ t.status = { s.status with done := false }) ∨
         (t.engine = .idle ∧ ∃ code, code ≠ ErrCode.none ∧
            t.status = { s.status with err := true, errcode := code }))) ∨
     (s.engine ≠ .idle ∧ t.engine = s.engine ∧ t.cmd = s.cmd ∧ t.status = { s.status with ovr := true }))

/-- R233, R234, with R235 and R237: the checks of an issued command, in their order; the first that fails gives the code. -/
def Obligations.ChecksAreMadeInFixedOrder : Prop :=
  ∀ (i : Instr) (s : State), s.engine = .idle →
    exec i s = .next
      (if (i = .convG ∨ i = .convC) ∧ (s.ksize.toNat % 2 = 0 ∨ s.params.kmax < s.ksize.toNat) then
        { s with status := { s.status with err := true, errcode := .ksizeErr } }
      else if (i = .convG ∨ i = .convC) ∧ s.kdiv = 0 then
        { s with status := { s.status with err := true, errcode := .kdivErr } }
      else if (i ∈ [Instr.convG, .histoG, .lutapG, .equalG] ∧
            2 ^ s.params.imemAw < s.imgBase.toNat + s.imgW.toNat * s.imgH.toNat) ∨
          (i ∈ [Instr.convC, .histoC, .lutapC, .equalC] ∧
            2 ^ s.params.imemAw < s.imgBase.toNat + s.imgW.toNat * s.imgH.toNat * 3) then
        { s with status := { s.status with err := true, errcode := .boundsErr } }
      else
        { s with
          engine := .busy ⟨i, s.imgBase, s.imgW, s.imgH, s.ksize, s.kdiv, s.imem⟩
          status := { s.status with done := false } })

/-- R236: a rejection sets ERR and ERRCODE; CMD holds the word; IRQ rises if enabled; nothing else changes. -/
def Obligations.RejectionChangesOnlyErr : Prop :=
  ∀ (s t : State) (w : Word), s.engine = .idle →
    hostAccess s ⟨s.params.regBase + 0x014, 4, .write w⟩ = .next t → t.engine = .idle →
    ∃ r code, code ≠ ErrCode.none ∧
      t = { s with
        response := r
        cmd := w
        status := { s.status with err := true, errcode := code } } ∧
      (s.ier.errIe = true → t.irq = true)

/-- R210, R173, R132: NOP, EQLUT and LOADK check nothing and are accepted whatever the operand registers hold. -/
def Obligations.CommandsWithoutImageAreAccepted : Prop :=
  ∀ (i : Instr) (s : State),
    i ∈ [Instr.nop, .eqlut, .loadkBox, .loadkGauss, .loadkSharpen, .loadkOutline, .loadkEmboss] →
    s.engine = .idle →
    exec i s = .next { s with
      engine := .busy ⟨i, s.imgBase, s.imgW, s.imgH, s.ksize, s.kdiv, s.imem⟩
      status := { s.status with done := false } }

/-- R235, R72: an image of no pixels is never out of bounds, so HISTO, LUTAP and EQUAL are accepted on it. -/
def Obligations.EmptyImageIsNeverOutOfBounds : Prop :=
  ∀ (i : Instr) (s : State), s.Inv → s.engine = .idle → s.imgW.toNat * s.imgH.toNat = 0 →
    ∃ t, exec i s = .next t ∧ (t.engine = .idle → (i = .convG ∨ i = .convC) ∧ t.status.errcode ≠ .boundsErr)

/-- R213, R214: no error occurs during execution; every command in flight completes in one engine step. -/
def Obligations.CommandInFlightCompletes : Prop :=
  ∀ (i : Instr) (s : State) (l : Latch), s.engine = .busy l →
    ∃ t, exec i s = .next t ∧ Completed s t ∧ SameControl s t ∧ mover t ≠ some .engine

/-- R211, R212, R214: a command whose checks pass is accepted and then completes. -/
def Obligations.IssuedCommandRunsToCompletion : Prop :=
  ∀ (i : Instr) (s : State), s.engine = .idle →
    ((i = .convG ∨ i = .convC) → s.ksize.toNat % 2 = 1 ∧ s.ksize.toNat ≤ s.params.kmax ∧ s.kdiv ≠ 0) →
    (i ∈ [Instr.convG, .histoG, .lutapG, .equalG] →
      s.imgBase.toNat + s.imgW.toNat * s.imgH.toNat ≤ 2 ^ s.params.imemAw) →
    (i ∈ [Instr.convC, .histoC, .lutapC, .equalC] →
      s.imgBase.toNat + s.imgW.toNat * s.imgH.toNat * 3 ≤ 2 ^ s.params.imemAw) →
    ∃ t u, exec i s = .next t ∧ t.busy = true ∧ exec i t = .next u ∧ Completed s u ∧ SameControl s u

/-- R280: the command in flight takes its operands from LATCH, so a host write to an operand register changes nothing
it writes. -/
def Obligations.LatchedOperandsShieldTheCommand : Prop :=
  ∀ (i : Instr) (s t t' : State) (l : Latch) (b : Word) (w h : Half) (k : BitVec 4) (d : Half), s.engine = .busy l →
    exec i s = .next t →
    exec i { s with imgBase := b, imgW := w, imgH := h, ksize := k, kdiv := d } = .next t' →
    t'.imem = t.imem ∧ t'.hist = t.hist ∧ t'.lut = t.lut ∧ t'.kmem = t.kmem ∧ SameEq t t' ∧
      t'.imgBase = b ∧ t'.imgW = w ∧ t'.imgH = h

/-! ### NOP and the convolution family -/

/-- R210: NOP changes only BUSY and DONE. -/
def Obligations.NopChangesOnlyBusyAndDone : Prop :=
  ∀ (s : State) (l : Latch), s.engine = .busy l →
    exec .nop s = .next { s with engine := .idle, status := { s.status with done := true } }

/-- R10: `rnd` is the nearest integer, an exact half going up; with the rule's five examples. -/
def Obligations.RoundingIsNearestHalfUp : Prop :=
  (∀ s d : Int, 1 ≤ d → rnd s d = Int.fdiv (2 * s + d) (2 * d) ∧
    2 * s - d < 2 * d * rnd s d ∧ 2 * d * rnd s d ≤ 2 * s + d) ∧
  rnd 8 16 = 1 ∧ rnd 40 16 = 3 ∧ rnd (-8) 16 = 0 ∧ rnd (-24) 16 = -1 ∧ rnd 450 9 = 50

/-- R11: the byte stored is the rounded value clamped to [0, 255]. -/
def Obligations.ClampRoundRoundsThenClamps : Prop :=
  ∀ s d : Int, ((clampRound s d).toNat : Int) = min 255 (max 0 (rnd s d))

/-- R121, R123: after a convolution every interior byte is the rounded and clamped sum over the snapshot, each border
byte keeps its snapshot value, and every other byte of IMEM and every other piece of state is as before. With a side
that is odd no window leaves the image. -/
def Obligations.ConvolutionWritesTheInterior : Prop :=
  ∀ p ∈ [(Instr.convG, Format.gray), (Instr.convC, Format.color)], ∀ (s : State) (l : Latch),
    s.engine = .busy l → s.imem.wf = true → l.snapshot = s.imem →
    ∃ t, exec p.1 s = .next t ∧ Completed s t ∧ SameControl s t ∧ SameKernel s t ∧ SameEq s t ∧
      t.hist = s.hist ∧ t.lut = s.lut ∧
      (∀ x y c, l.half ≤ x → x + l.half < l.imgW.toNat → l.half ≤ y → y + l.half < l.imgH.toNat → c < bpp p.2 →
        t.imem.read (l.pix p.2 x y c) = clampRound
          (∑ r ∈ Finset.range l.ksize.toNat, ∑ q ∈ Finset.range l.ksize.toNat,
            kernelWeight s.kmem (r * l.ksize.toNat + q) * sample (l.p0 p.2 (x + q - l.half) (y + r - l.half) c))
          l.kdiv.toNat) ∧
      (∀ x y c, x < l.imgW.toNat → y < l.imgH.toNat → c < bpp p.2 →
        ¬ (l.half ≤ x ∧ x + l.half < l.imgW.toNat ∧ l.half ≤ y ∧ y + l.half < l.imgH.toNat) →
        t.imem.read (l.pix p.2 x y c) = l.p0 p.2 x y c) ∧
      (∀ a, (∀ x y c, l.half ≤ x → x + l.half < l.imgW.toNat → l.half ≤ y → y + l.half < l.imgH.toNat →
          c < bpp p.2 → a ≠ l.pix p.2 x y c) → t.imem.read a = s.imem.read a) ∧
      (l.ksize.toNat % 2 = 1 → ∀ x y r q, l.half ≤ x → x + l.half < l.imgW.toNat → l.half ≤ y →
        y + l.half < l.imgH.toNat → r < l.ksize.toNat → q < l.ksize.toNat →
        l.half ≤ x + q ∧ x + q - l.half < l.imgW.toNat ∧ l.half ≤ y + r ∧ y + r - l.half < l.imgH.toNat)

/-- R121: the exact sum is at most k²·32768·255, so it fits a 32-bit signed accumulator, and 2·S + D fits 33 bits
signed. -/
def Obligations.ConvolutionSumFitsTheAccumulator : Prop :=
  ∀ (l : Latch) (f : Format) (kmem : List Half) (x y c : Nat),
    |convSum l f kmem x y c| ≤ l.ksize.toNat * l.ksize.toNat * (32768 * 255) ∧
    |convSum l f kmem x y c| < 2 ^ 31 ∧
    |2 * convSum l f kmem x y c + l.kdiv.toNat| < 2 ^ 32

/-- R126 items 1 and 2: an image with no interior pixel is unchanged, byte for byte and as data. -/
def Obligations.ConvolutionWithoutInteriorChangesNothing : Prop :=
  ∀ p ∈ [(Instr.convG, Format.gray), (Instr.convC, Format.color)], ∀ (s : State) (l : Latch), s.engine = .busy l →
    (l.imgW.toNat ≤ 2 * l.half ∨ l.imgH.toNat ≤ 2 * l.half) →
    exec p.1 s = .next { s with engine := .idle, status := { s.status with done := true } }

/-- R125: no channel of CONV.C depends on another channel's bytes. Two runs whose snapshots agree on channel `c` end
with the same bytes in that channel. -/
def Obligations.ConvolutionChannelsAreIndependent : Prop :=
  ∀ (s t t' : State) (l : Latch) (m : Memory) (c : Nat), s.engine = .busy l → s.imem.wf = true →
    l.ksize.toNat % 2 = 1 → c < 3 →
    (∀ x y, x < l.imgW.toNat → y < l.imgH.toNat → m.read (l.pix .color x y c) = l.snapshot.read (l.pix .color x y c)) →
    exec .convC s = .next t → exec .convC { s with engine := .busy { l with snapshot := m } } = .next t' →
    ∀ x y, x < l.imgW.toNat → y < l.imgH.toNat →
      t'.imem.read (l.pix .color x y c) = t.imem.read (l.pix .color x y c)

/-- R130, R131, R132: LOADK writes KMEM[0..8], KSIZE and KDIV from the catalog (presets 2 to 4 from the parameters),
and nothing else. -/
def Obligations.LoadkWritesTheCatalogKernel : Prop :=
  ∀ (s : State) (l : Latch) (i : Instr) (ws : List Half) (d : Half), s.engine = .busy l →
    ((i = .loadkBox ∧ ws = [1, 1, 1, 1, 1, 1, 1, 1, 1] ∧ d = 9) ∨
     (i = .loadkGauss ∧ ws = [1, 2, 1, 2, 4, 2, 1, 2, 1] ∧ d = 16) ∨
     (i = .loadkSharpen ∧ ws = s.params.presetW2.weights.toList ∧ d = s.params.presetW2.divisor) ∨
     (i = .loadkOutline ∧ ws = s.params.presetW3.weights.toList ∧ d = s.params.presetW3.divisor) ∨
     (i = .loadkEmboss ∧ ws = s.params.presetW4.weights.toList ∧ d = s.params.presetW4.divisor)) →
    9 ≤ s.kmem.length →
    ∃ t, exec i s = .next t ∧ Completed s t ∧ SameControl s t ∧ SameEq s t ∧
      t.hist = s.hist ∧ t.lut = s.lut ∧ (∀ a, t.imem.read a = s.imem.read a) ∧
      t.ksize = 3 ∧ t.kdiv = d ∧ t.kmem.length = s.kmem.length ∧
      (∀ j, t.kmem.getD j 0 = if j < 9 then ws.getD j 0 else s.kmem.getD j 0)

/-! ### The histogram, remap and projection family -/

/-- R160, R161: each bin of HIST ends as the number of pixels with its key, and nothing else changes. -/
def Obligations.HistogramCountsKeys : Prop :=
  ∀ (s : State) (l : Latch) (i : Instr) (key : Nat × Nat → Byte), s.engine = .busy l →
    ((i = .histoG ∧ key = fun p => l.p0 .gray p.1 p.2 0) ∨
     (i = .histoC ∧ key = fun p => clampRound
        (29900 * sample (l.p0 .color p.1 p.2 2) + 58700 * sample (l.p0 .color p.1 p.2 1)
          + 11400 * sample (l.p0 .color p.1 p.2 0)) 100000)) →
    ∃ t, exec i s = .next t ∧ Completed s t ∧ SameControl s t ∧ SameKernel s t ∧ SameEq s t ∧ t.lut = s.lut ∧
      (∀ a, t.imem.read a = s.imem.read a) ∧
      (∀ v : Fin 256, (t.hist[v]).toNat =
        ((Finset.range l.imgW.toNat ×ˢ Finset.range l.imgH.toNat).filter fun p => (key p).toNat = v.val).card)

/-- R161: the bins add up to the number of pixels. -/
def Obligations.HistogramTotalIsThePixelCount : Prop :=
  ∀ (s t : State) (l : Latch) (i : Instr), s.engine = .busy l → i ∈ [Instr.histoG, .histoC, .equalG, .equalC] →
    exec i s = .next t → ∑ v : Fin 256, (t.hist[v]).toNat = l.imgW.toNat * l.imgH.toNat

/-- R170 to R173: EQLUT's table, EQ_N, EQ_CDFMIN and DEGEN from the sums of HIST, `mn` being cdf_min (0 for an empty
histogram, else the cdf of the lowest occupied bin); nothing else changes. -/
def Obligations.EqlutBuildsTheRemapTable : Prop :=
  ∀ (s : State) (l : Latch) (mn : Nat), s.engine = .busy l → ∑ j : Fin 256, (s.hist[j]).toNat < 2 ^ 32 →
    (((∀ j : Fin 256, s.hist[j] = 0) ∧ mn = 0) ∨
      ∃ m : Fin 256, s.hist[m] ≠ 0 ∧ (∀ j < m, s.hist[j] = 0) ∧
        mn = ∑ j ∈ Finset.univ.filter (fun j : Fin 256 => j ≤ m), (s.hist[j]).toNat) →
    ∃ t, exec .eqlut s = .next t ∧ Completed s t ∧ SameControl s t ∧ SameKernel s t ∧ t.hist = s.hist ∧
      (∀ a, t.imem.read a = s.imem.read a) ∧
      t.eqN.toNat = ∑ j : Fin 256, (s.hist[j]).toNat ∧ t.eqCdfMin.toNat = mn ∧
      (t.degen = true ↔ ∑ j : Fin 256, (s.hist[j]).toNat = mn) ∧
      (∀ i : Fin 256, ((t.lut[i]).toNat : Int) =
        if ∑ j : Fin 256, (s.hist[j]).toNat = mn then (i.val : Int)
        else if ∑ j ∈ Finset.univ.filter (fun j : Fin 256 => j ≤ i), (s.hist[j]).toNat = 0 then 0
        else rnd
          (((∑ j ∈ Finset.univ.filter (fun j : Fin 256 => j ≤ i), (s.hist[j]).toNat : Nat) - (mn : Int)) * 255)
          ((∑ j : Fin 256, (s.hist[j]).toNat : Nat) - (mn : Int)))

/-- R174 items 1 and 2: the table never falls; where it is not the identity it is 0 up to the lowest occupied bin and
255 from the highest one on. -/
def Obligations.RemapTableRisesFromZeroTo255 : Prop :=
  ∀ (s t : State) (l : Latch), s.engine = .busy l → exec .eqlut s = .next t →
    (∀ i j : Fin 256, i ≤ j → (t.lut[i]).toNat ≤ (t.lut[j]).toNat) ∧
    (t.degen = false → ∀ i : Fin 256,
      ((∀ j < i, s.hist[j] = 0) → t.lut[i] = 0) ∧ ((∀ j > i, s.hist[j] = 0) → t.lut[i] = 255))

/-- R174 item 3: a histogram with every bin 1 gives the exact identity. -/
def Obligations.RampGivesTheIdentityTable : Prop :=
  ∀ (s : State) (l : Latch), s.engine = .busy l → (∀ j : Fin 256, s.hist[j] = 1) →
    ∃ t, exec .eqlut s = .next t ∧ t.degen = false ∧ ∀ i : Fin 256, (t.lut[i]).toNat = i.val

/-- R185: LUTAP.G replaces each sample by its table entry, and changes nothing else. -/
def Obligations.LutapGrayMapsEverySample : Prop :=
  ∀ (s : State) (l : Latch), s.engine = .busy l → s.imem.wf = true →
    ∃ t, exec .lutapG s = .next t ∧ Completed s t ∧ SameControl s t ∧ SameKernel s t ∧ SameEq s t ∧
      t.hist = s.hist ∧ t.lut = s.lut ∧
      (∀ x y, x < l.imgW.toNat → y < l.imgH.toNat →
        t.imem.read (l.pix .gray x y 0) = s.lut[(l.p0 .gray x y 0).toFin]) ∧
      (∀ a, (∀ x y, x < l.imgW.toNat → y < l.imgH.toNat → a ≠ l.pix .gray x y 0) → t.imem.read a = s.imem.read a)

/-- R180 to R183, R186: LUTAP.C projects each pixel: the luma goes through the table, U and V stay exact, each channel
is rounded and clamped once; nothing else changes. -/
def Obligations.LutapColorProjectsEveryPixel : Prop :=
  ∀ (s : State) (l : Latch), s.engine = .busy l → s.imem.wf = true →
    ∃ t, exec .lutapC s = .next t ∧ Completed s t ∧ SameControl s t ∧ SameKernel s t ∧ SameEq s t ∧
      t.hist = s.hist ∧ t.lut = s.lut ∧
      (∀ x y, x < l.imgW.toNat → y < l.imgH.toNat → ∀ B G R Y U V : Int,
        B = (l.p0 .color x y 0).toNat → G = (l.p0 .color x y 1).toNat → R = (l.p0 .color x y 2).toNat →
        Y = (s.lut[(clampRound (29900 * R + 58700 * G + 11400 * B) 100000).toFin]).toNat →
        U = -14713 * R - 28886 * G + 43600 * B → V = 61500 * R - 51499 * G - 10001 * B →
        t.imem.read (l.pix .color x y 0) = clampRound (Y * 10 ^ 10 + 203211 * U) (10 ^ 10) ∧
        t.imem.read (l.pix .color x y 1) = clampRound (Y * 10 ^ 10 - 39465 * U - 58060 * V) (10 ^ 10) ∧
        t.imem.read (l.pix .color x y 2) = clampRound (Y * 10 ^ 10 + 113983 * V) (10 ^ 10)) ∧
      (∀ a, (∀ x y c, x < l.imgW.toNat → y < l.imgH.toNat → c < 3 → a ≠ l.pix .color x y c) →
        t.imem.read a = s.imem.read a)

/-- R190, R191: EQUAL ends as HISTO, EQLUT and LUTAP issued and completed one after another on the same registers. The
`CMD <- w` of R211 is no part of `exec`, the host's write makes it (log entry 11), so the states compared all have the CMD
of `s`. Where each command is issued by its CMD write, the two runs end alike but for CMD: the word of LUTAP against that of
EQUAL. -/
def Obligations.EqualIsHistogramTableApply : Prop :=
  ∀ p ∈ [(Instr.equalG, Instr.histoG, Instr.lutapG, 1), (Instr.equalC, Instr.histoC, Instr.lutapC, 3)],
    ∀ s : State, s.engine = .idle → s.imgBase.toNat + s.imgW.toNat * s.imgH.toNat * p.2.2.2 ≤ 2 ^ s.params.imemAw →
    ∃ h1 h2 e1 e2 a1 a2 q1 : State,
      exec p.2.1 s = .next h1 ∧ exec p.2.1 h1 = .next h2 ∧ exec .eqlut h2 = .next e1 ∧ exec .eqlut e1 = .next e2 ∧
      exec p.2.2.1 e2 = .next a1 ∧ exec p.2.2.1 a1 = .next a2 ∧
      exec p.1 s = .next q1 ∧ q1.busy = true ∧ exec p.1 q1 = .next a2

/-- R190, R191: one EQUAL command in flight: HIST as HISTO leaves it, LUT and EQ_* as EQLUT builds them from that HIST,
the image through that LUT, and nothing else. -/
def Obligations.EqualUsesOneSnapshot : Prop :=
  ∀ p ∈ [(Instr.equalG, Instr.histoG, Instr.lutapG, Format.gray),
      (Instr.equalC, Instr.histoC, Instr.lutapC, Format.color)],
    ∀ (s : State) (l : Latch), s.engine = .busy l →
    ∃ t h e a, exec p.1 s = .next t ∧ Completed s t ∧ SameControl s t ∧ SameKernel s t ∧
      exec p.2.1 s = .next h ∧ t.hist = h.hist ∧
      exec .eqlut { s with hist := h.hist } = .next e ∧ t.lut = e.lut ∧ SameEq e t ∧
      exec p.2.2.1 { s with lut := e.lut } = .next a ∧ t.imem = a.imem ∧
      (∀ b, (∀ x y c, x < l.imgW.toNat → y < l.imgH.toNat → c < bpp p.2.2.2 → b ≠ l.pix p.2.2.2 x y c) →
        t.imem.read b = s.imem.read b)

/-- R183: under the identity table a gray-valued pixel maps to itself. -/
def Obligations.GrayPixelIsFixedByTheProjection : Prop :=
  ∀ (lut : Vector Byte 256) (v : Byte), (∀ i : Fin 256, (lut[i]).toNat = i.val) → project lut ⟨v, v, v⟩ = ⟨v, v, v⟩

/-- R192: EQUAL.C on a color image of one luma whose pixels are all gray-valued leaves every byte as it was. -/
def Obligations.DegenerateGrayValuedImageIsUnchanged : Prop :=
  ∀ (s t : State) (l : Latch), s.engine = .busy l → s.imem.wf = true → l.snapshot = s.imem →
    (∀ x y, x < l.imgW.toNat → y < l.imgH.toNat →
      l.p0 .color x y 0 = l.p0 .color x y 1 ∧ l.p0 .color x y 1 = l.p0 .color x y 2) →
    exec .equalC s = .next t → t.degen = true → t.imem = s.imem

/-- R70: a command touches no byte outside its image region, and one without an image no byte at all. -/
def Obligations.EngineWritesOnlyItsRegion : Prop :=
  ∀ (i : Instr) (s t : State) (l : Latch), s.engine = .busy l → exec i s = .next t →
    (∀ f, imageFormat i = some f → ∀ a,
      (a < l.imgBase.toNat ∨ l.imgBase.toNat + l.imgW.toNat * l.imgH.toNat * bpp f ≤ a) →
      t.imem.read a = s.imem.read a) ∧
    (imageFormat i = none → t.imem = s.imem)

/-- R70: a command reads no byte outside its image region. Two snapshots that agree inside it give the same result,
in every field. For CONV the side is odd, as the checks require. -/
def Obligations.EngineReadsOnlyItsRegion : Prop :=
  ∀ (i : Instr) (s : State) (l : Latch) (m : Memory), s.engine = .busy l →
    (isConv i = true → l.ksize.toNat % 2 = 1) →
    (∀ f, imageFormat i = some f → ∀ a, l.imgBase.toNat ≤ a →
      a < l.imgBase.toNat + l.imgW.toNat * l.imgH.toNat * bpp f → m.read a = l.snapshot.read a) →
    exec i { s with engine := .busy { l with snapshot := m } } = exec i s

/-! ### The host port -/

/-- R22 to R36: what a read of each register returns; a read of these is never refused and changes nothing. A write to
the read-only ones (ID, CAPS, EQ_N, EQ_CDFMIN, EQ_STAT) has no effect. -/
def Obligations.RegisterReadsReturnTheirValues : Prop :=
  ∀ (s : State),
    (∀ p ∈ [((0x000 : Nat), (0x43480100 : Word)),
      (0x004, 0#18 ++ BitVec.ofNat 6 s.params.imemAw ++ 0#4 ++ BitVec.ofNat 4 s.params.kmax),
      (0x008, 0), (0x014, s.cmd), (0x018, s.imgBase), (0x01C, s.imgW.setWidth 32), (0x020, s.imgH.setWidth 32),
      (0x024, s.ksize.setWidth 32), (0x028, s.kdiv.setWidth 32), (0x02C, s.eqN), (0x030, s.eqCdfMin),
      (0x034, if s.degen then 1 else 0)],
      hostAccess s ⟨s.params.regBase + p.1, 4, .read⟩ = .next { s with response := .data p.2 }) ∧
    ∀ offset ∈ [0x000, 0x004, 0x02C, 0x030, 0x034], ∀ v : Word,
      ∃ r, hostAccess s ⟨s.params.regBase + offset, 4, .write v⟩ = .next { s with response := r }

/-- R31, R50, R231: the bits of STATUS as read, with the number of each error code. -/
def Obligations.StatusReadShowsItsFields : Prop :=
  ∀ s : State, ∃ v : Word, hostAccess s ⟨s.params.regBase + 0x00C, 4, .read⟩ = .next { s with response := .data v } ∧
    (v.getLsbD 0 = true ↔ s.engine ≠ .idle) ∧ v.getLsbD 1 = s.status.done ∧ v.getLsbD 2 = s.status.err ∧
    v.getLsbD 3 = s.status.ovr ∧ v.getLsbD 4 = s.status.haz ∧ v.extractLsb' 5 3 = 0 ∧
    v.extractLsb' 8 4 = (match s.status.errcode with
      | .none => 0
      | .illegalCmd => 1
      | .ksizeErr => 2
      | .kdivErr => 3
      | .boundsErr => 4) ∧
    v.extractLsb' 12 20 = 0

/-- R31, R251: a STATUS write clears each flag written 1; ERRCODE goes with ERR; nothing else changes. -/
def Obligations.StatusWriteClearsOnes : Prop :=
  ∀ (s : State) (v : Word), ∃ r, hostAccess s ⟨s.params.regBase + 0x00C, 4, .write v⟩ = .next { s with
    response := r
    status := {
      done := s.status.done && !v.getLsbD 1
      err := s.status.err && !v.getLsbD 2
      ovr := s.status.ovr && !v.getLsbD 3
      haz := s.status.haz && !v.getLsbD 4
      errcode := if v.getLsbD 2 then .none else s.status.errcode } }

/-- R45, with R32 for the bits of IER: a write to a narrow register keeps the written bits inside its field and changes
nothing else (R67); a read returns the kept value; any value may be stored. Each row is the offset, the state after the
write, and the value then read. -/
def Obligations.NarrowFieldsKeepTheirBits : Prop :=
  ∀ (s : State) (v : Word), ∀ p ∈ [
      ((0x010 : Nat), { s with ier := ⟨v.getLsbD 1, v.getLsbD 2, v.getLsbD 3, v.getLsbD 4⟩ }, v &&& 0x1E),
      (0x018, { s with imgBase := BitVec.ofNat 32 (v.toNat % 2 ^ s.params.imemAw) },
        BitVec.ofNat 32 (v.toNat % 2 ^ s.params.imemAw)),
      (0x01C, { s with imgW := v.extractLsb' 0 16 }, v &&& 0xFFFF),
      (0x020, { s with imgH := v.extractLsb' 0 16 }, v &&& 0xFFFF),
      (0x024, { s with ksize := v.extractLsb' 0 4 }, v &&& 0xF),
      (0x028, { s with kdiv := v.extractLsb' 0 16 }, v &&& 0xFFFF)],
    ∃ r, hostAccess s ⟨s.params.regBase + p.1, 4, .write v⟩ = .next { p.2.1 with response := r } ∧
      hostAccess { p.2.1 with response := r } ⟨s.params.regBase + p.1, 4, .read⟩ =
        .next { p.2.1 with response := .data p.2.2 }

/-- R37: a reserved offset reads 0, ignores writes, and sets no status bit, busy or not. For the offsets above the last
KMEM entry while busy this is the model's reading of R22 and R37 against R281's "0xC00 onward" (log entry 7). -/
def Obligations.ReservedOffsetsReadZero : Prop :=
  ∀ (s : State) (offset : Nat) (v : Word), offset % 4 = 0 →
    ((0x038 ≤ offset ∧ offset < 0x400) ∨ (0x900 ≤ offset ∧ offset < 0xC00) ∨
      (0xC00 + 4 * (s.params.kmax * s.params.kmax) ≤ offset ∧ offset < 0x1000)) →
    hostAccess s ⟨s.params.regBase + offset, 4, .read⟩ = .next { s with response := .data 0 } ∧
    ∃ r, hostAccess s ⟨s.params.regBase + offset, 4, .write v⟩ = .next { s with response := r }

/-- R44: the three windows reach their arrays while the engine is idle. -/
def Obligations.WindowsReachTheArrays : Prop :=
  ∀ (s : State) (v : Word), s.engine = .idle → s.params.kmax ≤ 15 →
    s.kmem.length = s.params.kmax * s.params.kmax →
    (∀ i : Fin 256,
      hostAccess s ⟨s.params.regBase + 0x400 + 4 * i.val, 4, .read⟩ = .next { s with response := .data s.hist[i] } ∧
      ∃ r, hostAccess s ⟨s.params.regBase + 0x400 + 4 * i.val, 4, .write v⟩ = .next { s with response := r }) ∧
    (∀ j : Fin 64,
      (∃ r, hostAccess s ⟨s.params.regBase + 0x800 + 4 * j.val, 4, .read⟩ = .next { s with response := .data r } ∧
        ∀ b (_ : b < 4), r.extractLsb' (8 * b) 8 = s.lut[4 * j.val + b]) ∧
      (∃ r lut, hostAccess s ⟨s.params.regBase + 0x800 + 4 * j.val, 4, .write v⟩ =
          .next { s with response := r, lut := lut } ∧
        (∀ b (_ : b < 4), lut[4 * j.val + b] = v.extractLsb' (8 * b) 8) ∧
        ∀ i : Fin 256, i.val / 4 ≠ j.val → lut[i] = s.lut[i])) ∧
    (∀ i, i < s.params.kmax * s.params.kmax →
      hostAccess s ⟨s.params.regBase + 0xC00 + 4 * i, 4, .read⟩ =
        .next { s with response := .data ((s.kmem.getD i 0).signExtend 32) } ∧
      ∃ r km, hostAccess s ⟨s.params.regBase + 0xC00 + 4 * i, 4, .write v⟩ =
          .next { s with response := r, kmem := km } ∧
        km.length = s.kmem.length ∧ ∀ k, km.getD k 0 = if k = i then v.setWidth 16 else s.kmem.getD k 0)

/-- R62, R63, R65: the accesses of the two ranges that go on are exactly those of the right width and alignment; the
others are a fault that names the access. That a misaligned access while busy is a bus error and no refusal is the
model's reading (log entry 9). -/
def Obligations.BusErrorsAreWidthAndAlignment : Prop :=
  ∀ (s : State) (n w : Nat) (k : AccessKind), s.params.legal = true →
    (n < 0x1000 →
      ((w = 4 ∧ n % 4 = 0) → ∃ t, hostAccess s ⟨s.params.regBase + n, w, k⟩ = .next t) ∧
      (¬ (w = 4 ∧ n % 4 = 0) →
        hostAccess s ⟨s.params.regBase + n, w, k⟩ = .fault (.registerBusError ⟨s.params.regBase + n, w, k⟩))) ∧
    (n < 2 ^ s.params.imemAw →
      (((w = 1 ∨ w = 2 ∨ w = 4) ∧ n % w = 0) → ∃ t, hostAccess s ⟨s.params.imemBase + n, w, k⟩ = .next t) ∧
      (¬ ((w = 1 ∨ w = 2 ∨ w = 4) ∧ n % w = 0) →
        hostAccess s ⟨s.params.imemBase + n, w, k⟩ = .fault (.imemBusError ⟨s.params.imemBase + n, w, k⟩)))

/-- R67: a host read changes nothing but what the bus gives back, except that a refused one sets HAZ. The
draw counter that a refused read moves is the model's own field (log entry 5). -/
def Obligations.HostReadsHaveNoSideEffect : Prop :=
  ∀ (s t : State) (addr width : Nat), hostAccess s ⟨addr, width, .read⟩ = .next t →
    ∃ v, t = { s with response := .data v } ∨
      (s.engine ≠ .idle ∧
        t = { s with response := .data v, status := { s.status with haz := true }, draws := s.draws + 1 })

/-- R281: while busy, IMEM and the entries of the three windows are refused: HAZ is set, a write does nothing else, a
read gives back some value, zero beyond the access's width (U2). The draw counter that a refused read moves is the model's
own field (log entry 5); what the bus answers to a refused write is left open (log entry 6). -/
def Obligations.BusyEngineRefusesArrayAccess : Prop :=
  ∀ (s : State) (l : Latch) (n w : Nat) (v : Word), s.params.legal = true → s.engine = .busy l →
    ((∃ offset, n = s.params.regBase + offset ∧ w = 4 ∧ offset % 4 = 0 ∧
        ((0x400 ≤ offset ∧ offset < 0x900) ∨
          (0xC00 ≤ offset ∧ offset < 0xC00 + 4 * (s.params.kmax * s.params.kmax)))) ∨
     (∃ a, n = s.params.imemBase + a ∧ a < 2 ^ s.params.imemAw ∧ (w = 1 ∨ w = 2 ∨ w = 4) ∧ a % w = 0)) →
    (∃ q, hostAccess s ⟨n, w, .write v⟩ = .next { s with response := q, status := { s.status with haz := true } }) ∧
    ∃ r : Word, r.toNat < 2 ^ (8 * w) ∧ hostAccess s ⟨n, w, .read⟩ =
      .next { s with response := .data r, status := { s.status with haz := true }, draws := s.draws + 1 }

/-- R64: an idle IMEM write of width `n` stores byte i of the value at `a + i` and touches no other byte; reading the
same width back gives the value's low bytes. -/
def Obligations.ImemAccessIsLittleEndian : Prop :=
  ∀ (s : State) (a n : Nat) (v : Word), s.params.legal = true → s.engine = .idle → s.imem.wf = true →
    (n = 1 ∨ n = 2 ∨ n = 4) → a % n = 0 → a < 2 ^ s.params.imemAw →
    ∃ r m, hostAccess s ⟨s.params.imemBase + a, n, .write v⟩ = .next { s with response := r, imem := m } ∧
      (∀ i < n, m.read (a + i) = v.extractLsb' (8 * i) 8) ∧
      (∀ b, (b < a ∨ a + n ≤ b) → m.read b = s.imem.read b) ∧
      hostAccess { s with imem := m } ⟨s.params.imemBase + a, n, .read⟩ =
        .next { s with imem := m, response := .data (BitVec.ofNat 32 (v.toNat % 2 ^ (8 * n))) }

/-- R281, R216, R76, R77: while busy, no move of the host but a soft reset changes LATCH, the snapshot, IMEM, HIST, LUT,
KMEM, EQ_* or CMD. -/
def Obligations.HostCannotDisturbTheCommandInFlight : Prop :=
  ∀ (s t : State) (l : Latch) (line : HostLine) (rest : List HostLine), s.engine = .busy l →
    s.script = line :: rest → harmlessLine s.params line = true → mover s = some .host → step s = .next t →
    t.engine = .busy l ∧ t.imem = s.imem ∧ t.hist = s.hist ∧ t.lut = s.lut ∧ t.kmem = s.kmem ∧ SameEq s t ∧
      t.cmd = s.cmd

/-- R26, R218, R272: CTRL bit 0 resets registers, flags and HIST and leaves the engine idle and IRQ low; an idle reset
keeps LUT, KMEM and IMEM; a write with bit 0 = 0 has no effect. -/
def Obligations.SoftResetClearsTheRegisters : Prop :=
  ∀ (s : State) (v : Word),
    (v.getLsbD 0 = true → ∃ t, hostAccess s ⟨s.params.regBase + 0x008, 4, .write v⟩ = .next t ∧
      t.status = ⟨false, false, false, false, .none⟩ ∧ t.ier = ⟨false, false, false, false⟩ ∧ t.cmd = 0 ∧
      t.imgBase = 0 ∧ t.imgW = 0 ∧ t.imgH = 0 ∧ t.ksize = 0 ∧ t.kdiv = 0 ∧ t.eqN = 0 ∧ t.eqCdfMin = 0 ∧
      t.degen = false ∧ (∀ j : Fin 256, t.hist[j] = 0) ∧ t.engine = .idle ∧ t.irq = false ∧
      (s.engine = .idle → t.lut = s.lut ∧ t.kmem = s.kmem ∧ t.imem = s.imem)) ∧
    (v.getLsbD 0 = false →
      ∃ r, hostAccess s ⟨s.params.regBase + 0x008, 4, .write v⟩ = .next { s with response := r })

/-- R219, R273: a soft reset while busy leaves as they were every location the aborted command would not have written:
all of IMEM but a convolution's interior or the region of LUTAP and EQUAL, LUT but for EQLUT and EQUAL, KMEM but for
the first nine entries of a LOADK. Nothing is said of the free values of the others. -/
def Obligations.AbortTouchesOnlyTheCommandsTargets : Prop :=
  ∀ (s : State) (l : Latch) (v : Word), s.engine = .busy l → v.getLsbD 0 = true →
    ∃ t, hostAccess s ⟨s.params.regBase + 0x008, 4, .write v⟩ = .next t ∧ t.engine = .idle ∧
      t.status.done = false ∧ t.kmem.length = s.kmem.length ∧
      (∀ a, (∀ f ∈ [(Format.gray, Instr.convG), (Format.color, Instr.convC)], l.instr = f.2 → ∀ x y c,
          l.half ≤ x → x + l.half < l.imgW.toNat → l.half ≤ y → y + l.half < l.imgH.toNat → c < bpp f.1 →
          a ≠ l.pix f.1 x y c) →
        (l.instr ∈ [Instr.lutapG, .equalG] →
          a < l.imgBase.toNat ∨ l.imgBase.toNat + l.imgW.toNat * l.imgH.toNat ≤ a) →
        (l.instr ∈ [Instr.lutapC, .equalC] →
          a < l.imgBase.toNat ∨ l.imgBase.toNat + l.imgW.toNat * l.imgH.toNat * 3 ≤ a) →
        t.imem.read a = s.imem.read a) ∧
      (l.instr ∉ [Instr.eqlut, .equalG, .equalC] → t.lut = s.lut) ∧
      (∀ j, (l.instr ∈ [Instr.loadkBox, .loadkGauss, .loadkSharpen, .loadkOutline, .loadkEmboss] → 9 ≤ j) →
        t.kmem.getD j 0 = s.kmem.getD j 0)

/-- R38, R250: IRQ is high exactly when some pending bit is enabled; so an enabled completion raises it. -/
def Obligations.EnabledCompletionRaisesIrq : Prop :=
  (∀ s : State, s.irq = true ↔ (s.status.done = true ∧ s.ier.doneIe = true) ∨ (s.status.err = true ∧ s.ier.errIe = true) ∨
    (s.status.ovr = true ∧ s.ier.ovrIe = true) ∨ (s.status.haz = true ∧ s.ier.hazIe = true)) ∧
  ∀ (i : Instr) (s : State) (l : Latch), s.engine = .busy l → s.ier.doneIe = true →
    ∃ t, exec i s = .next t ∧ t.irq = true ∧ t.status.done = true

/-- R101: `wait` reads STATUS and goes on once BUSY reads 0. The script is the model's own field (log entry 4). -/
def Obligations.WaitGoesOnWhenIdle : Prop :=
  ∀ (s : State) (rest : List HostLine), s.script = .wait :: rest → mover s = some .host →
    ∃ t, step s = .next t ∧ t.response = .data s.statusWord ∧ (t.script = rest ↔ s.engine = .idle) ∧
      (s.engine ≠ .idle → t.script = s.script) ∧ t.imem = s.imem ∧ t.status = s.status ∧ t.engine = s.engine

/-! ### Reset, invariant, liveness -/

/-- R51, R270: the state after a power-on, for any parameters and any contents of the unspecified arrays. -/
def Obligations.PowerOnClearsTheRegisters : Prop :=
  ∀ (p : Params) (lut : Vector Byte 256) (kmem : List Half) (imem : Memory) (s : State),
    s = State.powerOn p lut kmem imem →
    s.statusWord = 0 ∧ s.ier.toWord = 0 ∧ s.cmd = 0 ∧ s.imgBase = 0 ∧ s.imgW = 0 ∧ s.imgH = 0 ∧ s.ksize = 0 ∧
      s.kdiv = 0 ∧ s.eqN = 0 ∧ s.eqCdfMin = 0 ∧ eqStatWord s.degen = 0 ∧ s.engine = .idle ∧ s.irq = false ∧
      (∀ j : Fin 256, s.hist[j] = 0) ∧ s.lut = lut ∧ s.kmem = kmem ∧ s.imem = imem ∧
      readReg s .id = 0x43480100 ∧
      readReg s .caps = 0#18 ++ BitVec.ofNat 6 p.imemAw ++ 0#4 ++ BitVec.ofNat 4 p.kmax

/-- R271: EQLUT right after reset builds the identity table, whatever LUT held. -/
def Obligations.EqlutAfterPowerOnIsIdentity : Prop :=
  ∀ (p : Params) (lut : Vector Byte 256) (kmem : List Half) (imem : Memory),
    ∃ t u, exec .eqlut (State.powerOn p lut kmem imem) = .next t ∧ exec .eqlut t = .next u ∧
      u.eqN = 0 ∧ u.eqCdfMin = 0 ∧ u.degen = true ∧ ∀ i : Fin 256, (u.lut[i]).toNat = i.val

/-- The invariant holds after a power-on with any legal parameters and any contents of the right size; so it holds at
`State.reset`, whose zero contents are the model's choice (log entry 2). -/
def Obligations.PowerOnMeetsTheInvariant : Prop :=
  (∀ (p : Params) (lut : Vector Byte 256) (kmem : List Half) (imem : Memory), p.legal = true →
    kmem.length = p.kmax * p.kmax → imem.wf = true → imem.below p.imemSize → (State.powerOn p lut kmem imem).Inv) ∧
  State.reset.Inv

/-- Every step keeps the invariant: the canonical form and bounds of memory, the field widths, ERRCODE with ERR, the
histogram's bound, the legality of the operands in flight, and the snapshot equal to IMEM. No step changes the
parameters (R7). -/
def Obligations.EveryStepKeepsTheInvariant : Prop :=
  ∀ s t : State, s.Inv → step s = .next t → t.Inv ∧ t.params = s.params

/-- R65: the only stops of the machine are the faults of the host's next access; the engine never stops (the fault of an
address in neither range is the model's choice, log entry 8). -/
def Obligations.OnlyHostAccessesStop : Prop :=
  ∀ s : State, (∀ a rest, s.script = .access a :: rest → mover s = some .host →
    ∃ t, hostAccess s a = .next t) → SafeStep s

/-- R285: an accepted command completes in finite time. From any busy state whose script holds no bus error and no soft
reset, the engine is idle with DONE set within as many steps as `turns` is long, and one more: the bound is the
model's choice (log entry 3), the rule gives none. -/
def Obligations.CommandInFlightCompletesInFiniteTime : Prop :=
  ∀ (s : State) (l : Latch), s.engine = .busy l → (∀ line ∈ s.script, harmlessLine s.params line = true) →
    ∃ k t, k ≤ s.turns.length + 1 ∧ Reaches k s t ∧ t.engine = .idle ∧ t.status.done = true
end

