-- ==== Sys2Proof/Laws/Memory.lean ====
section
/-! SUPPORT. The laws of image memory: read after write, the frame of a write, and that every memory operation keeps
the canonical form and the address bound. -/

namespace Sys2Proof.Machine

@[simp] theorem read_nil (a : Nat) : Memory.read [] a = Memory.unlisted := rfl

theorem wfFrom_mono {m : Memory} {lo hi : Nat} (h : lo ≤ hi) (hm : Memory.wfFrom hi m = true) :
    Memory.wfFrom lo m = true := by
  cases m with
  | nil => rfl
  | cons cell rest =>
    simp only [Memory.wfFrom, Bool.and_eq_true, decide_eq_true_eq] at hm ⊢
    exact ⟨⟨by omega, hm.1.2⟩, hm.2⟩

/-- In canonical form nothing is listed below the lower bound. -/
theorem read_below {m : Memory} {lo a : Nat} (hm : Memory.wfFrom lo m = true) (ha : a < lo) :
    m.read a = Memory.unlisted := by
  induction m generalizing lo with
  | nil => rfl
  | cons cell rest ih =>
    simp only [Memory.wfFrom, Bool.and_eq_true, decide_eq_true_eq] at hm
    have hne : a ≠ cell.1 := by omega
    simp only [Memory.read, if_neg hne]
    exact ih hm.2 (by omega)

/-- The frame of a one-byte write; it needs no canonical form. -/
theorem read_write_ne (m : Memory) {a a' : Nat} (v : Byte) (h : a' ≠ a) : (m.write a v).read a' = m.read a' := by
  induction m with
  | nil => by_cases hv : v = Memory.unlisted <;> simp [Memory.write, Memory.read, hv, h]
  | cons cell rest ih =>
    simp only [Memory.write]
    split
    · split <;> simp [Memory.read, h]
    · split
      · rename_i _ heq
        have hne : a' ≠ cell.1 := by omega
        split <;> simp [Memory.read, hne]
      · simp only [Memory.read]
        rw [ih]

theorem read_write_self_from {m : Memory} {lo : Nat} (hm : Memory.wfFrom lo m = true) (a : Nat) (v : Byte) :
    (m.write a v).read a = v := by
  induction m generalizing lo with
  | nil => by_cases hv : v = Memory.unlisted <;> simp [Memory.write, Memory.read, hv]
  | cons cell rest ih =>
    simp only [Memory.wfFrom, Bool.and_eq_true, decide_eq_true_eq] at hm
    simp only [Memory.write]
    split
    · rename_i hlt
      split
      · rename_i hv
        have hne : a ≠ cell.1 := by omega
        simp only [Memory.read, if_neg hne, hv]
        exact read_below hm.2 (by omega)
      · simp [Memory.read]
    · split
      · rename_i _ heq
        split
        · rename_i hv
          rw [hv]
          exact read_below hm.2 (by omega)
        · simp [Memory.read, heq]
      · rename_i _ hne
        simp only [Memory.read, if_neg hne]
        exact ih hm.2

/-- Read after write to the same address. -/
theorem read_write_self {m : Memory} (hm : m.wf = true) (a : Nat) (v : Byte) : (m.write a v).read a = v :=
  read_write_self_from hm a v

theorem wfFrom_write {m : Memory} {lo a : Nat} (hm : Memory.wfFrom lo m = true) (ha : lo ≤ a) (v : Byte) :
    Memory.wfFrom lo (m.write a v) = true := by
  induction m generalizing lo with
  | nil => by_cases hv : v = Memory.unlisted <;> simp [Memory.write, Memory.wfFrom, hv, ha]
  | cons cell rest ih =>
    have hm' := hm
    simp only [Memory.wfFrom, Bool.and_eq_true, decide_eq_true_eq] at hm'
    obtain ⟨⟨hlo, hb⟩, hrest⟩ := hm'
    simp only [Memory.write]
    split
    · split
      · exact hm
      · rename_i hv
        simp only [Memory.wfFrom, Bool.and_eq_true, decide_eq_true_eq]
        exact ⟨⟨ha, by simpa using hv⟩, ⟨by omega, hb⟩, hrest⟩
    · split
      · split
        · exact wfFrom_mono (by omega) hrest
        · rename_i hv
          simp only [Memory.wfFrom, Bool.and_eq_true, decide_eq_true_eq]
          exact ⟨⟨hlo, by simpa using hv⟩, hrest⟩
      · simp only [Memory.wfFrom, Bool.and_eq_true, decide_eq_true_eq]
        exact ⟨⟨hlo, hb⟩, ih hrest (by omega)⟩

/-- A write keeps the canonical form. -/
theorem wf_write {m : Memory} (hm : m.wf = true) (a : Nat) (v : Byte) : (m.write a v).wf = true :=
  wfFrom_write hm (Nat.zero_le a) v

/-- A write below the bound keeps every listed address below it. -/
theorem below_write {m : Memory} {bound a : Nat} (hm : m.below bound) (ha : a < bound) (v : Byte) :
    (m.write a v).below bound := by
  induction m with
  | nil => by_cases hv : v = Memory.unlisted <;> simp [Memory.write, Memory.below, hv, ha]
  | cons cell rest ih =>
    have hc : cell.1 < bound := hm cell (by simp)
    have hr : Memory.below bound rest := fun c hcr => hm c (by simp [hcr])
    have hcons : ∀ {k : Nat} {b : Byte} {m' : Memory}, k < bound → Memory.below bound m' →
        Memory.below bound ((k, b) :: m') := by
      intro k b m' hk h' c hmem
      rcases List.mem_cons.mp hmem with rfl | h
      · exact hk
      · exact h' c h
    simp only [Memory.write]
    split
    · split
      · exact hm
      · exact hcons ha hm
    · split
      · split
        · exact hr
        · exact hcons hc hr
      · exact hcons hc (ih hr)

@[simp] theorem writeCells_nil (m : Memory) : m.writeCells [] = m := rfl

@[simp] theorem writeCells_cons (m : Memory) (cell : Host.Cell) (cells : List Host.Cell) :
    m.writeCells (cell :: cells) = (m.write cell.1 cell.2).writeCells cells := rfl

theorem writeCells_append (m : Memory) (xs ys : List Host.Cell) :
    m.writeCells (xs ++ ys) = (m.writeCells xs).writeCells ys := by
  simp [Memory.writeCells]

/-- Writing cells keeps the canonical form. -/
theorem wf_writeCells {m : Memory} (hm : m.wf = true) (cells : List Host.Cell) : (m.writeCells cells).wf = true := by
  induction cells generalizing m with
  | nil => exact hm
  | cons cell rest ih => exact ih (wf_write hm cell.1 cell.2)

/-- Writing cells below the bound keeps every listed address below it. -/
theorem below_writeCells {m : Memory} {bound : Nat} (hm : m.below bound) {cells : List Host.Cell}
    (hc : ∀ cell ∈ cells, cell.1 < bound) : (m.writeCells cells).below bound := by
  induction cells generalizing m with
  | nil => exact hm
  | cons cell rest ih =>
    exact ih (below_write hm (hc cell (by simp)) cell.2) fun c h => hc c (by simp [h])

/-- The frame of writing cells. -/
theorem read_writeCells_ne (m : Memory) {cells : List Host.Cell} {a : Nat} (h : ∀ cell ∈ cells, cell.1 ≠ a) :
    (m.writeCells cells).read a = m.read a := by
  induction cells generalizing m with
  | nil => rfl
  | cons cell rest ih =>
    rw [writeCells_cons, ih _ fun c hc => h c (by simp [hc])]
    exact read_write_ne m cell.2 (h cell (by simp)).symm

/-- Reading back a written cell, where all cells of one address agree on the byte. -/
theorem read_writeCells_mem {m : Memory} (hm : m.wf = true) {cells : List Host.Cell} {a : Nat} {v : Byte}
    (hmem : (a, v) ∈ cells) (huniq : ∀ cell ∈ cells, cell.1 = a → cell.2 = v) : (m.writeCells cells).read a = v := by
  induction cells generalizing m with
  | nil => simp at hmem
  | cons cell rest ih =>
    rw [writeCells_cons]
    have hu : ∀ c ∈ rest, c.1 = a → c.2 = v := fun c hc => huniq c (by simp [hc])
    by_cases hin : (a, v) ∈ rest
    · exact ih (wf_write hm _ _) hin hu
    · have heq : cell = (a, v) := by
        rcases List.mem_cons.mp hmem with h | h
        · exact h.symm
        · exact absurd h hin
      rw [read_writeCells_ne _ fun c hc hca => hin (by
        have hcv := hu c hc hca
        have hce : c = (a, v) := Prod.ext hca hcv
        exact hce ▸ hc)]
      rw [heq]
      exact read_write_self hm a v

/-- MemWrite keeps the canonical form. -/
theorem wf_writeN {m : Memory} (hm : m.wf = true) (a n : Nat) (v : Word) : (m.writeN a n v).wf = true :=
  wf_writeCells hm _

/-- The frame of MemWrite. -/
theorem read_writeN_ne (m : Memory) {a n a' : Nat} (v : Word) (h : a' < a ∨ a + n ≤ a') :
    (m.writeN a n v).read a' = m.read a' := by
  refine read_writeCells_ne m fun cell hc => ?_
  simp only [List.mem_map, List.mem_range] at hc
  obtain ⟨i, hi, rfl⟩ := hc
  simp only
  omega

/-- Each byte MemWrite stores (R64). -/
theorem read_writeN {m : Memory} (hm : m.wf = true) (a n : Nat) (v : Word) {i : Nat} (hi : i < n) :
    (m.writeN a n v).read (a + i) = v.extractLsb' (8 * i) 8 := by
  refine read_writeCells_mem hm (List.mem_map.mpr ⟨i, List.mem_range.mpr hi, rfl⟩) fun cell hc ha => ?_
  simp only [List.mem_map, List.mem_range] at hc
  obtain ⟨j, _, rfl⟩ := hc
  have : j = i := by simp only at ha; omega
  rw [this]

/-- MemWrite inside the bound keeps every listed address below it. -/
theorem below_writeN {m : Memory} {bound : Nat} (hm : m.below bound) {a n : Nat} (h : a + n ≤ bound) (v : Word) :
    (m.writeN a n v).below bound := by
  refine below_writeCells hm fun cell hc => ?_
  simp only [List.mem_map, List.mem_range] at hc
  obtain ⟨i, hi, rfl⟩ := hc
  simp only
  omega

/-- Canonical memories are equal when they read alike, so equal contents are equal data. -/
theorem eq_of_read_from {m m' : Memory} {lo : Nat} (hm : Memory.wfFrom lo m = true) (hm' : Memory.wfFrom lo m' = true)
    (h : ∀ a, m.read a = m'.read a) : m = m' := by
  induction m generalizing m' lo with
  | nil =>
    cases m' with
    | nil => rfl
    | cons c r =>
      exfalso
      simp only [Memory.wfFrom, Bool.and_eq_true, decide_eq_true_eq] at hm'
      have := h c.1
      simp only [Memory.read, if_true] at this
      simp [← this] at hm'
  | cons c r ih =>
    simp only [Memory.wfFrom, Bool.and_eq_true, decide_eq_true_eq] at hm
    cases m' with
    | nil =>
      exfalso
      have := h c.1
      simp only [Memory.read, if_true] at this
      simp [this] at hm
    | cons c' r' =>
      simp only [Memory.wfFrom, Bool.and_eq_true, decide_eq_true_eq] at hm'
      have hne : c.2 ≠ Memory.unlisted := by simpa using hm.1.2
      have hne' : c'.2 ≠ Memory.unlisted := by simpa using hm'.1.2
      have hkey : c.1 = c'.1 := by
        rcases Nat.lt_trichotomy c.1 c'.1 with hlt | heq | hgt
        · exfalso
          have h1 := h c.1
          simp only [Memory.read, if_true, if_neg (Nat.ne_of_lt hlt)] at h1
          exact hne (h1.trans (read_below hm'.2 (by omega)))
        · exact heq
        · exfalso
          have h1 := h c'.1
          simp only [Memory.read, if_true, if_neg (Nat.ne_of_lt hgt)] at h1
          exact hne' (h1.symm.trans (read_below hm.2 (by omega)))
      have hval : c.2 = c'.2 := by
        have h1 := h c.1
        simp only [Memory.read, if_true, if_pos hkey] at h1
        exact h1
      have hrest : r = r' := by
        refine ih hm.2 (hkey ▸ hm'.2) fun a => ?_
        by_cases ha : a = c.1
        · rw [ha, read_below hm.2 (by omega), read_below hm'.2 (by omega)]
        · have h1 := h a
          simp only [Memory.read, if_neg ha, if_neg (hkey ▸ ha : a ≠ c'.1)] at h1
          exact h1
      rw [hrest, Prod.ext hkey hval]

/-- Canonical memories that read alike are equal. -/
theorem eq_of_read {m m' : Memory} (hm : m.wf = true) (hm' : m'.wf = true) (h : ∀ a, m.read a = m'.read a) : m = m' :=
  eq_of_read_from hm hm' h

/-- The memory of the reset state is canonical. -/
theorem reset_imem_wf : State.reset.imem.wf = true := rfl

end Sys2Proof.Machine
end

