-- ==== Sys2Proof/Laws/Operands.lean ====
section
/-! SUPPORT. Laws of the operand forms: the rounding and clamping primitives, pixel coordinates and addresses, the
kernel array. -/

namespace Sys2Proof.Machine

/-! ### Rounding and clamping (R10, R11) -/

/-- `rnd` is a nearest integer, a half going up. -/
theorem rnd_bounds (s : Int) {d : Int} (hd : 0 < d) : 2 * s - d < 2 * d * rnd s d ∧ 2 * d * rnd s d ≤ 2 * s + d := by
  have h1 := Int.emod_add_mul_ediv (2 * s + d) (2 * d)
  have h2 := Int.emod_nonneg (2 * s + d) (by omega : 2 * d ≠ 0)
  have h3 := Int.emod_lt_of_pos (2 * s + d) (by omega : 0 < 2 * d)
  unfold rnd
  constructor <;> linarith

/-- Only one integer lies within the bounds of `rnd_bounds`. -/
theorem rnd_unique {s d q : Int} (hd : 0 < d) (h1 : 2 * s - d < 2 * d * q) (h2 : 2 * d * q ≤ 2 * s + d) :
    rnd s d = q := by
  obtain ⟨h3, h4⟩ := rnd_bounds s hd
  have h5 : 2 * d * (rnd s d - q) < 2 * d * 1 := by linarith [mul_sub (2 * d) (rnd s d) q]
  have h6 : 2 * d * (q - rnd s d) < 2 * d * 1 := by linarith [mul_sub (2 * d) q (rnd s d)]
  have h7 := lt_of_mul_lt_mul_left h5 (by omega)
  have h8 := lt_of_mul_lt_mul_left h6 (by omega)
  omega

/-- `rnd` is monotone in the numerator. -/
theorem rnd_mono {s s' d : Int} (hd : 0 < d) (h : s ≤ s') : rnd s d ≤ rnd s' d :=
  Int.ediv_le_ediv (by omega) (by omega)

theorem rnd_mul {q d : Int} (hd : 0 < d) : rnd (q * d) d = q :=
  rnd_unique hd (by linarith [mul_comm q d]) (by linarith [mul_comm q d])

theorem clamp8_bounds (v : Int) : 0 ≤ clamp8 v ∧ clamp8 v ≤ 255 := by
  unfold clamp8
  omega

theorem clamp8_of_mem {v : Int} (h0 : 0 ≤ v) (h1 : v ≤ 255) : clamp8 v = v := by
  unfold clamp8
  omega

theorem toNat_ofInt8 {v : Int} (h0 : 0 ≤ v) (h1 : v ≤ 255) : ((BitVec.ofInt 8 v).toNat : Int) = v := by
  rw [BitVec.toNat_ofInt]
  omega

/-- The byte `clamp_round` stores holds exactly the clamped value. -/
theorem clampRound_toNat (s d : Int) : ((clampRound s d).toNat : Int) = clamp8 (rnd s d) :=
  toNat_ofInt8 (clamp8_bounds _).1 (clamp8_bounds _).2

theorem sample_bounds (b : Byte) : 0 ≤ sample b ∧ sample b ≤ 255 := by
  have := b.isLt
  unfold sample
  omega

/-! ### Pixels and addresses (R71, R123) -/

@[simp] theorem mem_coords {w h x y : Nat} : (x, y) ∈ coords w h ↔ x < w ∧ y < h := by
  simp only [coords, List.mem_flatMap, List.mem_range, List.mem_map, Prod.mk.injEq]
  constructor
  · rintro ⟨y', hy, x', hx, rfl, rfl⟩
    exact ⟨hx, hy⟩
  · rintro ⟨hx, hy⟩
    exact ⟨y, hy, x, hx, rfl, rfl⟩

theorem coords_nodup (w h : Nat) : (coords w h).Nodup := by
  refine List.nodup_flatMap.mpr ⟨fun y _ => ?_, ?_⟩
  · exact (List.nodup_range).map fun a b hab => (Prod.mk.inj hab).1
  · refine List.nodup_range.imp fun {a b} hab => ?_
    simp only [Function.onFun, List.Disjoint, List.mem_map, List.mem_range]
    rintro p ⟨_, _, rfl⟩ ⟨_, _, heq⟩
    exact hab (Prod.mk.inj heq).2.symm

theorem coords_length (w h : Nat) : (coords w h).length = w * h := by
  simp [coords, List.length_flatMap, Nat.mul_comm]

/-- Every pixel, as a finite set. -/
theorem coords_toFinset (w h : Nat) : (coords w h).toFinset = Finset.range w ×ˢ Finset.range h := by
  ext p
  obtain ⟨x, y⟩ := p
  simp

@[simp] theorem mem_pixels {l : Latch} {x y : Nat} : (x, y) ∈ l.pixels ↔ x < l.imgW.toNat ∧ y < l.imgH.toNat := mem_coords

theorem interior_iff {l : Latch} {x y : Nat} : l.interior x y = true ↔
    l.half ≤ x ∧ x + l.half < l.imgW.toNat ∧ l.half ≤ y ∧ y + l.half < l.imgH.toNat := by
  simp [Latch.interior, and_assoc]

@[simp] theorem mem_interiorPixels {l : Latch} {x y : Nat} : (x, y) ∈ l.interiorPixels ↔ l.interior x y = true := by
  simp only [Latch.interiorPixels, List.mem_filter, mem_pixels]
  constructor
  · exact fun h => h.2
  · intro h
    have := interior_iff.mp h
    exact ⟨⟨by omega, by omega⟩, h⟩

/-- Two bytes of the image with one address are the same channel of the same pixel. -/
theorem pix_inj {l : Latch} {f : Format} {x y c x' y' c' : Nat} (hx : x < l.imgW.toNat) (hx' : x' < l.imgW.toNat)
    (hc : c < bpp f) (hc' : c' < bpp f) (h : l.pix f x y c = l.pix f x' y' c') : x = x' ∧ y = y' ∧ c = c' := by
  unfold Latch.pix at h
  have h0 : (y * l.imgW.toNat + x) * bpp f + c = (y' * l.imgW.toNat + x') * bpp f + c' := by omega
  have hb : 0 < bpp f := by omega
  have hcc : c = c' := by
    have := congrArg (· % bpp f) h0
    simpa [Nat.add_mod, Nat.mod_eq_of_lt hc, Nat.mod_eq_of_lt hc'] using this
  have hq : y * l.imgW.toNat + x = y' * l.imgW.toNat + x' := by
    subst hcc
    exact Nat.eq_of_mul_eq_mul_right hb (by omega)
  have hxx : x = x' := by
    have := congrArg (· % l.imgW.toNat) hq
    simpa [Nat.add_mod, Nat.mod_eq_of_lt hx, Nat.mod_eq_of_lt hx'] using this
  subst hxx
  have hw : 0 < l.imgW.toNat := by omega
  exact ⟨rfl, Nat.eq_of_mul_eq_mul_right hw (by omega), hcc⟩

/-- Every byte of the image lies in REGION (R70). -/
theorem pix_mem_region {l : Latch} {f : Format} {x y c : Nat} (hx : x < l.imgW.toNat) (hy : y < l.imgH.toNat)
    (hc : c < bpp f) :
    l.imgBase.toNat ≤ l.pix f x y c ∧ l.pix f x y c < l.imgBase.toNat + imageBytes f l.imgW l.imgH := by
  unfold Latch.pix imageBytes
  have h1 : y * l.imgW.toNat + x + 1 ≤ l.imgW.toNat * l.imgH.toNat := by
    calc y * l.imgW.toNat + x + 1 ≤ y * l.imgW.toNat + l.imgW.toNat := by omega
      _ = (y + 1) * l.imgW.toNat := by ring
      _ ≤ l.imgH.toNat * l.imgW.toNat := Nat.mul_le_mul_right _ hy
      _ = l.imgW.toNat * l.imgH.toNat := Nat.mul_comm _ _
  have h2 : (y * l.imgW.toNat + x + 1) * bpp f ≤ l.imgW.toNat * l.imgH.toNat * bpp f := Nat.mul_le_mul_right _ h1
  have h3 : (y * l.imgW.toNat + x + 1) * bpp f = (y * l.imgW.toNat + x) * bpp f + bpp f := by ring
  omega

/-! ### The kernel array (R40) -/

@[simp] theorem kmemLoad_length (kmem ws : List Half) : (kmemLoad kmem ws).length = kmem.length := by
  simp [kmemLoad]

/-- The first entries are loaded, the others kept (R132). -/
theorem kmemLoad_getD (kmem ws : List Half) (h : ws.length ≤ kmem.length) (i : Nat) :
    (kmemLoad kmem ws).getD i 0 = if i < ws.length then ws.getD i 0 else kmem.getD i 0 := by
  unfold kmemLoad
  by_cases hi : i < kmem.length
  · rw [List.getD_eq_getElem _ _ (by simpa using hi)]
    simp only [List.getElem_map, List.getElem_range]
  · rw [List.getD_eq_default _ _ (by simp; omega), if_neg (by omega), List.getD_eq_default _ _ (by omega)]

end Sys2Proof.Machine
end

