-- ==== Sys2Proof/Laws/State.lean ====
section
/-! SUPPORT. One lemma a field for each named update of the state, so that no later proof unfolds a record update. -/

namespace Sys2Proof.Machine

variable (s : State)

@[simp] theorem reject_params (code : ErrCode) : (s.reject code).params = s.params := rfl
@[simp] theorem reject_status (code : ErrCode) : (s.reject code).status = s.status.rejected code := rfl
@[simp] theorem reject_ier (code : ErrCode) : (s.reject code).ier = s.ier := rfl
@[simp] theorem reject_cmd (code : ErrCode) : (s.reject code).cmd = s.cmd := rfl
@[simp] theorem reject_imgBase (code : ErrCode) : (s.reject code).imgBase = s.imgBase := rfl
@[simp] theorem reject_imgW (code : ErrCode) : (s.reject code).imgW = s.imgW := rfl
@[simp] theorem reject_imgH (code : ErrCode) : (s.reject code).imgH = s.imgH := rfl
@[simp] theorem reject_ksize (code : ErrCode) : (s.reject code).ksize = s.ksize := rfl
@[simp] theorem reject_kdiv (code : ErrCode) : (s.reject code).kdiv = s.kdiv := rfl
@[simp] theorem reject_eqN (code : ErrCode) : (s.reject code).eqN = s.eqN := rfl
@[simp] theorem reject_eqCdfMin (code : ErrCode) : (s.reject code).eqCdfMin = s.eqCdfMin := rfl
@[simp] theorem reject_degen (code : ErrCode) : (s.reject code).degen = s.degen := rfl
@[simp] theorem reject_kmem (code : ErrCode) : (s.reject code).kmem = s.kmem := rfl
@[simp] theorem reject_hist (code : ErrCode) : (s.reject code).hist = s.hist := rfl
@[simp] theorem reject_lut (code : ErrCode) : (s.reject code).lut = s.lut := rfl
@[simp] theorem reject_imem (code : ErrCode) : (s.reject code).imem = s.imem := rfl
@[simp] theorem reject_engine (code : ErrCode) : (s.reject code).engine = s.engine := rfl
@[simp] theorem reject_script (code : ErrCode) : (s.reject code).script = s.script := rfl
@[simp] theorem reject_turns (code : ErrCode) : (s.reject code).turns = s.turns := rfl
@[simp] theorem reject_response (code : ErrCode) : (s.reject code).response = s.response := rfl
@[simp] theorem reject_draws (code : ErrCode) : (s.reject code).draws = s.draws := rfl

@[simp] theorem writeStatus_params (v : Word) : (s.writeStatus v).params = s.params := rfl
@[simp] theorem writeStatus_status (v : Word) : (s.writeStatus v).status = s.status.clear v := rfl
@[simp] theorem writeStatus_ier (v : Word) : (s.writeStatus v).ier = s.ier := rfl
@[simp] theorem writeStatus_cmd (v : Word) : (s.writeStatus v).cmd = s.cmd := rfl
@[simp] theorem writeStatus_imgBase (v : Word) : (s.writeStatus v).imgBase = s.imgBase := rfl
@[simp] theorem writeStatus_imgW (v : Word) : (s.writeStatus v).imgW = s.imgW := rfl
@[simp] theorem writeStatus_imgH (v : Word) : (s.writeStatus v).imgH = s.imgH := rfl
@[simp] theorem writeStatus_ksize (v : Word) : (s.writeStatus v).ksize = s.ksize := rfl
@[simp] theorem writeStatus_kdiv (v : Word) : (s.writeStatus v).kdiv = s.kdiv := rfl
@[simp] theorem writeStatus_eqN (v : Word) : (s.writeStatus v).eqN = s.eqN := rfl
@[simp] theorem writeStatus_eqCdfMin (v : Word) : (s.writeStatus v).eqCdfMin = s.eqCdfMin := rfl
@[simp] theorem writeStatus_degen (v : Word) : (s.writeStatus v).degen = s.degen := rfl
@[simp] theorem writeStatus_kmem (v : Word) : (s.writeStatus v).kmem = s.kmem := rfl
@[simp] theorem writeStatus_hist (v : Word) : (s.writeStatus v).hist = s.hist := rfl
@[simp] theorem writeStatus_lut (v : Word) : (s.writeStatus v).lut = s.lut := rfl
@[simp] theorem writeStatus_imem (v : Word) : (s.writeStatus v).imem = s.imem := rfl
@[simp] theorem writeStatus_engine (v : Word) : (s.writeStatus v).engine = s.engine := rfl
@[simp] theorem writeStatus_script (v : Word) : (s.writeStatus v).script = s.script := rfl
@[simp] theorem writeStatus_turns (v : Word) : (s.writeStatus v).turns = s.turns := rfl
@[simp] theorem writeStatus_response (v : Word) : (s.writeStatus v).response = s.response := rfl
@[simp] theorem writeStatus_draws (v : Word) : (s.writeStatus v).draws = s.draws := rfl

@[simp] theorem accept_params (i : Instr) : (s.accept i).params = s.params := rfl
@[simp] theorem accept_status (i : Instr) : (s.accept i).status = s.status.accepted := rfl
@[simp] theorem accept_ier (i : Instr) : (s.accept i).ier = s.ier := rfl
@[simp] theorem accept_cmd (i : Instr) : (s.accept i).cmd = s.cmd := rfl
@[simp] theorem accept_imgBase (i : Instr) : (s.accept i).imgBase = s.imgBase := rfl
@[simp] theorem accept_imgW (i : Instr) : (s.accept i).imgW = s.imgW := rfl
@[simp] theorem accept_imgH (i : Instr) : (s.accept i).imgH = s.imgH := rfl
@[simp] theorem accept_ksize (i : Instr) : (s.accept i).ksize = s.ksize := rfl
@[simp] theorem accept_kdiv (i : Instr) : (s.accept i).kdiv = s.kdiv := rfl
@[simp] theorem accept_eqN (i : Instr) : (s.accept i).eqN = s.eqN := rfl
@[simp] theorem accept_eqCdfMin (i : Instr) : (s.accept i).eqCdfMin = s.eqCdfMin := rfl
@[simp] theorem accept_degen (i : Instr) : (s.accept i).degen = s.degen := rfl
@[simp] theorem accept_kmem (i : Instr) : (s.accept i).kmem = s.kmem := rfl
@[simp] theorem accept_hist (i : Instr) : (s.accept i).hist = s.hist := rfl
@[simp] theorem accept_lut (i : Instr) : (s.accept i).lut = s.lut := rfl
@[simp] theorem accept_imem (i : Instr) : (s.accept i).imem = s.imem := rfl
@[simp] theorem accept_engine (i : Instr) : (s.accept i).engine = .busy (latchOf i s) := rfl
@[simp] theorem accept_script (i : Instr) : (s.accept i).script = s.script := rfl
@[simp] theorem accept_turns (i : Instr) : (s.accept i).turns = s.turns := rfl
@[simp] theorem accept_response (i : Instr) : (s.accept i).response = s.response := rfl
@[simp] theorem accept_draws (i : Instr) : (s.accept i).draws = s.draws := rfl

@[simp] theorem complete_params : (s.complete).params = s.params := rfl
@[simp] theorem complete_status : (s.complete).status = s.status.completed := rfl
@[simp] theorem complete_ier : (s.complete).ier = s.ier := rfl
@[simp] theorem complete_cmd : (s.complete).cmd = s.cmd := rfl
@[simp] theorem complete_imgBase : (s.complete).imgBase = s.imgBase := rfl
@[simp] theorem complete_imgW : (s.complete).imgW = s.imgW := rfl
@[simp] theorem complete_imgH : (s.complete).imgH = s.imgH := rfl
@[simp] theorem complete_ksize : (s.complete).ksize = s.ksize := rfl
@[simp] theorem complete_kdiv : (s.complete).kdiv = s.kdiv := rfl
@[simp] theorem complete_eqN : (s.complete).eqN = s.eqN := rfl
@[simp] theorem complete_eqCdfMin : (s.complete).eqCdfMin = s.eqCdfMin := rfl
@[simp] theorem complete_degen : (s.complete).degen = s.degen := rfl
@[simp] theorem complete_kmem : (s.complete).kmem = s.kmem := rfl
@[simp] theorem complete_hist : (s.complete).hist = s.hist := rfl
@[simp] theorem complete_lut : (s.complete).lut = s.lut := rfl
@[simp] theorem complete_imem : (s.complete).imem = s.imem := rfl
@[simp] theorem complete_engine : (s.complete).engine = .idle := rfl
@[simp] theorem complete_script : (s.complete).script = s.script := rfl
@[simp] theorem complete_turns : (s.complete).turns = s.turns := rfl
@[simp] theorem complete_response : (s.complete).response = s.response := rfl
@[simp] theorem complete_draws : (s.complete).draws = s.draws := rfl

@[simp] theorem drop_params : (s.drop).params = s.params := rfl
@[simp] theorem drop_status : (s.drop).status = s.status.dropped := rfl
@[simp] theorem drop_ier : (s.drop).ier = s.ier := rfl
@[simp] theorem drop_cmd : (s.drop).cmd = s.cmd := rfl
@[simp] theorem drop_imgBase : (s.drop).imgBase = s.imgBase := rfl
@[simp] theorem drop_imgW : (s.drop).imgW = s.imgW := rfl
@[simp] theorem drop_imgH : (s.drop).imgH = s.imgH := rfl
@[simp] theorem drop_ksize : (s.drop).ksize = s.ksize := rfl
@[simp] theorem drop_kdiv : (s.drop).kdiv = s.kdiv := rfl
@[simp] theorem drop_eqN : (s.drop).eqN = s.eqN := rfl
@[simp] theorem drop_eqCdfMin : (s.drop).eqCdfMin = s.eqCdfMin := rfl
@[simp] theorem drop_degen : (s.drop).degen = s.degen := rfl
@[simp] theorem drop_kmem : (s.drop).kmem = s.kmem := rfl
@[simp] theorem drop_hist : (s.drop).hist = s.hist := rfl
@[simp] theorem drop_lut : (s.drop).lut = s.lut := rfl
@[simp] theorem drop_imem : (s.drop).imem = s.imem := rfl
@[simp] theorem drop_engine : (s.drop).engine = s.engine := rfl
@[simp] theorem drop_script : (s.drop).script = s.script := rfl
@[simp] theorem drop_turns : (s.drop).turns = s.turns := rfl
@[simp] theorem drop_response : (s.drop).response = s.response := rfl
@[simp] theorem drop_draws : (s.drop).draws = s.draws := rfl

@[simp] theorem refuseWrite_params : (s.refuseWrite).params = s.params := rfl
@[simp] theorem refuseWrite_status : (s.refuseWrite).status = s.status.hazarded := rfl
@[simp] theorem refuseWrite_ier : (s.refuseWrite).ier = s.ier := rfl
@[simp] theorem refuseWrite_cmd : (s.refuseWrite).cmd = s.cmd := rfl
@[simp] theorem refuseWrite_imgBase : (s.refuseWrite).imgBase = s.imgBase := rfl
@[simp] theorem refuseWrite_imgW : (s.refuseWrite).imgW = s.imgW := rfl
@[simp] theorem refuseWrite_imgH : (s.refuseWrite).imgH = s.imgH := rfl
@[simp] theorem refuseWrite_ksize : (s.refuseWrite).ksize = s.ksize := rfl
@[simp] theorem refuseWrite_kdiv : (s.refuseWrite).kdiv = s.kdiv := rfl
@[simp] theorem refuseWrite_eqN : (s.refuseWrite).eqN = s.eqN := rfl
@[simp] theorem refuseWrite_eqCdfMin : (s.refuseWrite).eqCdfMin = s.eqCdfMin := rfl
@[simp] theorem refuseWrite_degen : (s.refuseWrite).degen = s.degen := rfl
@[simp] theorem refuseWrite_kmem : (s.refuseWrite).kmem = s.kmem := rfl
@[simp] theorem refuseWrite_hist : (s.refuseWrite).hist = s.hist := rfl
@[simp] theorem refuseWrite_lut : (s.refuseWrite).lut = s.lut := rfl
@[simp] theorem refuseWrite_imem : (s.refuseWrite).imem = s.imem := rfl
@[simp] theorem refuseWrite_engine : (s.refuseWrite).engine = s.engine := rfl
@[simp] theorem refuseWrite_script : (s.refuseWrite).script = s.script := rfl
@[simp] theorem refuseWrite_turns : (s.refuseWrite).turns = s.turns := rfl
@[simp] theorem refuseWrite_response : (s.refuseWrite).response = .written := rfl
@[simp] theorem refuseWrite_draws : (s.refuseWrite).draws = s.draws := rfl

@[simp] theorem refuseRead_params (width : Nat) : (s.refuseRead width).params = s.params := rfl
@[simp] theorem refuseRead_status (width : Nat) : (s.refuseRead width).status = s.status.hazarded := rfl
@[simp] theorem refuseRead_ier (width : Nat) : (s.refuseRead width).ier = s.ier := rfl
@[simp] theorem refuseRead_cmd (width : Nat) : (s.refuseRead width).cmd = s.cmd := rfl
@[simp] theorem refuseRead_imgBase (width : Nat) : (s.refuseRead width).imgBase = s.imgBase := rfl
@[simp] theorem refuseRead_imgW (width : Nat) : (s.refuseRead width).imgW = s.imgW := rfl
@[simp] theorem refuseRead_imgH (width : Nat) : (s.refuseRead width).imgH = s.imgH := rfl
@[simp] theorem refuseRead_ksize (width : Nat) : (s.refuseRead width).ksize = s.ksize := rfl
@[simp] theorem refuseRead_kdiv (width : Nat) : (s.refuseRead width).kdiv = s.kdiv := rfl
@[simp] theorem refuseRead_eqN (width : Nat) : (s.refuseRead width).eqN = s.eqN := rfl
@[simp] theorem refuseRead_eqCdfMin (width : Nat) : (s.refuseRead width).eqCdfMin = s.eqCdfMin := rfl
@[simp] theorem refuseRead_degen (width : Nat) : (s.refuseRead width).degen = s.degen := rfl
@[simp] theorem refuseRead_kmem (width : Nat) : (s.refuseRead width).kmem = s.kmem := rfl
@[simp] theorem refuseRead_hist (width : Nat) : (s.refuseRead width).hist = s.hist := rfl
@[simp] theorem refuseRead_lut (width : Nat) : (s.refuseRead width).lut = s.lut := rfl
@[simp] theorem refuseRead_imem (width : Nat) : (s.refuseRead width).imem = s.imem := rfl
@[simp] theorem refuseRead_engine (width : Nat) : (s.refuseRead width).engine = s.engine := rfl
@[simp] theorem refuseRead_script (width : Nat) : (s.refuseRead width).script = s.script := rfl
@[simp] theorem refuseRead_turns (width : Nat) : (s.refuseRead width).turns = s.turns := rfl
@[simp] theorem refuseRead_response (width : Nat) : (s.refuseRead width).response = .data (((Config.freeReadWord s.draws).setWidth (8 * width)).setWidth 32) := rfl
@[simp] theorem refuseRead_draws (width : Nat) : (s.refuseRead width).draws = s.draws + 1 := rfl

@[simp] theorem resetRegisters_params : (s.resetRegisters).params = s.params := rfl
@[simp] theorem resetRegisters_status : (s.resetRegisters).status = ⟨false, false, false, false, .none⟩ := rfl
@[simp] theorem resetRegisters_ier : (s.resetRegisters).ier = ⟨false, false, false, false⟩ := rfl
@[simp] theorem resetRegisters_cmd : (s.resetRegisters).cmd = 0 := rfl
@[simp] theorem resetRegisters_imgBase : (s.resetRegisters).imgBase = 0 := rfl
@[simp] theorem resetRegisters_imgW : (s.resetRegisters).imgW = 0 := rfl
@[simp] theorem resetRegisters_imgH : (s.resetRegisters).imgH = 0 := rfl
@[simp] theorem resetRegisters_ksize : (s.resetRegisters).ksize = 0 := rfl
@[simp] theorem resetRegisters_kdiv : (s.resetRegisters).kdiv = 0 := rfl
@[simp] theorem resetRegisters_eqN : (s.resetRegisters).eqN = 0 := rfl
@[simp] theorem resetRegisters_eqCdfMin : (s.resetRegisters).eqCdfMin = 0 := rfl
@[simp] theorem resetRegisters_degen : (s.resetRegisters).degen = false := rfl
@[simp] theorem resetRegisters_kmem : (s.resetRegisters).kmem = s.kmem := rfl
@[simp] theorem resetRegisters_hist : (s.resetRegisters).hist = Vector.replicate 256 0 := rfl
@[simp] theorem resetRegisters_lut : (s.resetRegisters).lut = s.lut := rfl
@[simp] theorem resetRegisters_imem : (s.resetRegisters).imem = s.imem := rfl
@[simp] theorem resetRegisters_engine : (s.resetRegisters).engine = .idle := rfl
@[simp] theorem resetRegisters_script : (s.resetRegisters).script = s.script := rfl
@[simp] theorem resetRegisters_turns : (s.resetRegisters).turns = s.turns := rfl
@[simp] theorem resetRegisters_response : (s.resetRegisters).response = s.response := rfl
@[simp] theorem resetRegisters_draws : (s.resetRegisters).draws = s.draws := rfl

@[simp] theorem convolve_params (f : Format) (l : Latch) : (convolve f l s).params = s.params := rfl
@[simp] theorem convolve_status (f : Format) (l : Latch) : (convolve f l s).status = s.status := rfl
@[simp] theorem convolve_ier (f : Format) (l : Latch) : (convolve f l s).ier = s.ier := rfl
@[simp] theorem convolve_cmd (f : Format) (l : Latch) : (convolve f l s).cmd = s.cmd := rfl
@[simp] theorem convolve_imgBase (f : Format) (l : Latch) : (convolve f l s).imgBase = s.imgBase := rfl
@[simp] theorem convolve_imgW (f : Format) (l : Latch) : (convolve f l s).imgW = s.imgW := rfl
@[simp] theorem convolve_imgH (f : Format) (l : Latch) : (convolve f l s).imgH = s.imgH := rfl
@[simp] theorem convolve_ksize (f : Format) (l : Latch) : (convolve f l s).ksize = s.ksize := rfl
@[simp] theorem convolve_kdiv (f : Format) (l : Latch) : (convolve f l s).kdiv = s.kdiv := rfl
@[simp] theorem convolve_eqN (f : Format) (l : Latch) : (convolve f l s).eqN = s.eqN := rfl
@[simp] theorem convolve_eqCdfMin (f : Format) (l : Latch) : (convolve f l s).eqCdfMin = s.eqCdfMin := rfl
@[simp] theorem convolve_degen (f : Format) (l : Latch) : (convolve f l s).degen = s.degen := rfl
@[simp] theorem convolve_kmem (f : Format) (l : Latch) : (convolve f l s).kmem = s.kmem := rfl
@[simp] theorem convolve_hist (f : Format) (l : Latch) : (convolve f l s).hist = s.hist := rfl
@[simp] theorem convolve_lut (f : Format) (l : Latch) : (convolve f l s).lut = s.lut := rfl
@[simp] theorem convolve_imem (f : Format) (l : Latch) : (convolve f l s).imem = s.imem.writeCells (convCells l f s.kmem) := rfl
@[simp] theorem convolve_engine (f : Format) (l : Latch) : (convolve f l s).engine = s.engine := rfl
@[simp] theorem convolve_script (f : Format) (l : Latch) : (convolve f l s).script = s.script := rfl
@[simp] theorem convolve_turns (f : Format) (l : Latch) : (convolve f l s).turns = s.turns := rfl
@[simp] theorem convolve_response (f : Format) (l : Latch) : (convolve f l s).response = s.response := rfl
@[simp] theorem convolve_draws (f : Format) (l : Latch) : (convolve f l s).draws = s.draws := rfl

@[simp] theorem loadKernel_params (k : KernelTable) : (loadKernel k s).params = s.params := rfl
@[simp] theorem loadKernel_status (k : KernelTable) : (loadKernel k s).status = s.status := rfl
@[simp] theorem loadKernel_ier (k : KernelTable) : (loadKernel k s).ier = s.ier := rfl
@[simp] theorem loadKernel_cmd (k : KernelTable) : (loadKernel k s).cmd = s.cmd := rfl
@[simp] theorem loadKernel_imgBase (k : KernelTable) : (loadKernel k s).imgBase = s.imgBase := rfl
@[simp] theorem loadKernel_imgW (k : KernelTable) : (loadKernel k s).imgW = s.imgW := rfl
@[simp] theorem loadKernel_imgH (k : KernelTable) : (loadKernel k s).imgH = s.imgH := rfl
@[simp] theorem loadKernel_ksize (k : KernelTable) : (loadKernel k s).ksize = 3 := rfl
@[simp] theorem loadKernel_kdiv (k : KernelTable) : (loadKernel k s).kdiv = k.divisor := rfl
@[simp] theorem loadKernel_eqN (k : KernelTable) : (loadKernel k s).eqN = s.eqN := rfl
@[simp] theorem loadKernel_eqCdfMin (k : KernelTable) : (loadKernel k s).eqCdfMin = s.eqCdfMin := rfl
@[simp] theorem loadKernel_degen (k : KernelTable) : (loadKernel k s).degen = s.degen := rfl
@[simp] theorem loadKernel_kmem (k : KernelTable) : (loadKernel k s).kmem = kmemLoad s.kmem k.weights.toList := rfl
@[simp] theorem loadKernel_hist (k : KernelTable) : (loadKernel k s).hist = s.hist := rfl
@[simp] theorem loadKernel_lut (k : KernelTable) : (loadKernel k s).lut = s.lut := rfl
@[simp] theorem loadKernel_imem (k : KernelTable) : (loadKernel k s).imem = s.imem := rfl
@[simp] theorem loadKernel_engine (k : KernelTable) : (loadKernel k s).engine = s.engine := rfl
@[simp] theorem loadKernel_script (k : KernelTable) : (loadKernel k s).script = s.script := rfl
@[simp] theorem loadKernel_turns (k : KernelTable) : (loadKernel k s).turns = s.turns := rfl
@[simp] theorem loadKernel_response (k : KernelTable) : (loadKernel k s).response = s.response := rfl
@[simp] theorem loadKernel_draws (k : KernelTable) : (loadKernel k s).draws = s.draws := rfl

@[simp] theorem histogram_params (f : Format) (l : Latch) : (histogram f l s).params = s.params := rfl
@[simp] theorem histogram_status (f : Format) (l : Latch) : (histogram f l s).status = s.status := rfl
@[simp] theorem histogram_ier (f : Format) (l : Latch) : (histogram f l s).ier = s.ier := rfl
@[simp] theorem histogram_cmd (f : Format) (l : Latch) : (histogram f l s).cmd = s.cmd := rfl
@[simp] theorem histogram_imgBase (f : Format) (l : Latch) : (histogram f l s).imgBase = s.imgBase := rfl
@[simp] theorem histogram_imgW (f : Format) (l : Latch) : (histogram f l s).imgW = s.imgW := rfl
@[simp] theorem histogram_imgH (f : Format) (l : Latch) : (histogram f l s).imgH = s.imgH := rfl
@[simp] theorem histogram_ksize (f : Format) (l : Latch) : (histogram f l s).ksize = s.ksize := rfl
@[simp] theorem histogram_kdiv (f : Format) (l : Latch) : (histogram f l s).kdiv = s.kdiv := rfl
@[simp] theorem histogram_eqN (f : Format) (l : Latch) : (histogram f l s).eqN = s.eqN := rfl
@[simp] theorem histogram_eqCdfMin (f : Format) (l : Latch) : (histogram f l s).eqCdfMin = s.eqCdfMin := rfl
@[simp] theorem histogram_degen (f : Format) (l : Latch) : (histogram f l s).degen = s.degen := rfl
@[simp] theorem histogram_kmem (f : Format) (l : Latch) : (histogram f l s).kmem = s.kmem := rfl
@[simp] theorem histogram_hist (f : Format) (l : Latch) : (histogram f l s).hist = accumulate f l := rfl
@[simp] theorem histogram_lut (f : Format) (l : Latch) : (histogram f l s).lut = s.lut := rfl
@[simp] theorem histogram_imem (f : Format) (l : Latch) : (histogram f l s).imem = s.imem := rfl
@[simp] theorem histogram_engine (f : Format) (l : Latch) : (histogram f l s).engine = s.engine := rfl
@[simp] theorem histogram_script (f : Format) (l : Latch) : (histogram f l s).script = s.script := rfl
@[simp] theorem histogram_turns (f : Format) (l : Latch) : (histogram f l s).turns = s.turns := rfl
@[simp] theorem histogram_response (f : Format) (l : Latch) : (histogram f l s).response = s.response := rfl
@[simp] theorem histogram_draws (f : Format) (l : Latch) : (histogram f l s).draws = s.draws := rfl

@[simp] theorem buildTable_params : (buildTable s).params = s.params := rfl
@[simp] theorem buildTable_status : (buildTable s).status = s.status := rfl
@[simp] theorem buildTable_ier : (buildTable s).ier = s.ier := rfl
@[simp] theorem buildTable_cmd : (buildTable s).cmd = s.cmd := rfl
@[simp] theorem buildTable_imgBase : (buildTable s).imgBase = s.imgBase := rfl
@[simp] theorem buildTable_imgW : (buildTable s).imgW = s.imgW := rfl
@[simp] theorem buildTable_imgH : (buildTable s).imgH = s.imgH := rfl
@[simp] theorem buildTable_ksize : (buildTable s).ksize = s.ksize := rfl
@[simp] theorem buildTable_kdiv : (buildTable s).kdiv = s.kdiv := rfl
@[simp] theorem buildTable_eqN : (buildTable s).eqN = BitVec.ofNat 32 (histTotal s.hist) := rfl
@[simp] theorem buildTable_eqCdfMin : (buildTable s).eqCdfMin = BitVec.ofNat 32 (cdfMin s.hist) := rfl
@[simp] theorem buildTable_degen : (buildTable s).degen = degenerate s.hist := rfl
@[simp] theorem buildTable_kmem : (buildTable s).kmem = s.kmem := rfl
@[simp] theorem buildTable_hist : (buildTable s).hist = s.hist := rfl
@[simp] theorem buildTable_lut : (buildTable s).lut = remapTable s.hist := rfl
@[simp] theorem buildTable_imem : (buildTable s).imem = s.imem := rfl
@[simp] theorem buildTable_engine : (buildTable s).engine = s.engine := rfl
@[simp] theorem buildTable_script : (buildTable s).script = s.script := rfl
@[simp] theorem buildTable_turns : (buildTable s).turns = s.turns := rfl
@[simp] theorem buildTable_response : (buildTable s).response = s.response := rfl
@[simp] theorem buildTable_draws : (buildTable s).draws = s.draws := rfl

@[simp] theorem applyTable_params (f : Format) (l : Latch) : (applyTable f l s).params = s.params := rfl
@[simp] theorem applyTable_status (f : Format) (l : Latch) : (applyTable f l s).status = s.status := rfl
@[simp] theorem applyTable_ier (f : Format) (l : Latch) : (applyTable f l s).ier = s.ier := rfl
@[simp] theorem applyTable_cmd (f : Format) (l : Latch) : (applyTable f l s).cmd = s.cmd := rfl
@[simp] theorem applyTable_imgBase (f : Format) (l : Latch) : (applyTable f l s).imgBase = s.imgBase := rfl
@[simp] theorem applyTable_imgW (f : Format) (l : Latch) : (applyTable f l s).imgW = s.imgW := rfl
@[simp] theorem applyTable_imgH (f : Format) (l : Latch) : (applyTable f l s).imgH = s.imgH := rfl
@[simp] theorem applyTable_ksize (f : Format) (l : Latch) : (applyTable f l s).ksize = s.ksize := rfl
@[simp] theorem applyTable_kdiv (f : Format) (l : Latch) : (applyTable f l s).kdiv = s.kdiv := rfl
@[simp] theorem applyTable_eqN (f : Format) (l : Latch) : (applyTable f l s).eqN = s.eqN := rfl
@[simp] theorem applyTable_eqCdfMin (f : Format) (l : Latch) : (applyTable f l s).eqCdfMin = s.eqCdfMin := rfl
@[simp] theorem applyTable_degen (f : Format) (l : Latch) : (applyTable f l s).degen = s.degen := rfl
@[simp] theorem applyTable_kmem (f : Format) (l : Latch) : (applyTable f l s).kmem = s.kmem := rfl
@[simp] theorem applyTable_hist (f : Format) (l : Latch) : (applyTable f l s).hist = s.hist := rfl
@[simp] theorem applyTable_lut (f : Format) (l : Latch) : (applyTable f l s).lut = s.lut := rfl
@[simp] theorem applyTable_imem (f : Format) (l : Latch) : (applyTable f l s).imem = s.imem.writeCells (lutCells s.lut l f) := rfl
@[simp] theorem applyTable_engine (f : Format) (l : Latch) : (applyTable f l s).engine = s.engine := rfl
@[simp] theorem applyTable_script (f : Format) (l : Latch) : (applyTable f l s).script = s.script := rfl
@[simp] theorem applyTable_turns (f : Format) (l : Latch) : (applyTable f l s).turns = s.turns := rfl
@[simp] theorem applyTable_response (f : Format) (l : Latch) : (applyTable f l s).response = s.response := rfl
@[simp] theorem applyTable_draws (f : Format) (l : Latch) : (applyTable f l s).draws = s.draws := rfl

end Sys2Proof.Machine
end

