-- ==== Sys2Proof/Laws/Lifecycle.lean ====
section
/-! SUPPORT. What issue, the meanings and the soft reset can do, said once each. -/

namespace Sys2Proof.Machine

/-! ### Issue (R211, R237) -/

theorem check_of_not_conv {i : Instr} (h : isConv i = false) (s : State) :
    check i s = match imageFormat i with
      | some f => boundsCheck f s
      | none => .none := by
  cases hf : imageFormat i <;> simp [check, h, hf]

theorem check_of_conv {i : Instr} {f : Format} (hc : isConv i = true) (hf : imageFormat i = some f) (s : State) :
    check i s = if kernelCheck s ≠ .none then kernelCheck s else boundsCheck f s := by
  simp [check, hc, hf]

/-- A CONV command is exactly CONV.G or CONV.C, and then it has an image. -/
theorem isConv_format {i : Instr} (h : isConv i = true) : ∃ f, imageFormat i = some f := by
  cases i <;> simp_all [isConv, imageFormat, operationOf]

/-- Issue accepts exactly when the checks pass, and else rejects with their code. -/
theorem issue_cases (i : Instr) (s : State) :
    (check i s = .none ∧ s.issue i = s.accept i) ∨ (check i s ≠ .none ∧ s.issue i = s.reject (check i s)) := by
  unfold State.issue
  split
  · rename_i h
    exact .inl ⟨h, rfl⟩
  · rename_i h
    exact .inr ⟨h, rfl⟩

/-- What passing checks say (R237). -/
theorem check_none_iff (i : Instr) (s : State) : check i s = .none ↔
    (isConv i = true → s.ksize.toNat % 2 = 1 ∧ s.ksize.toNat ≤ s.params.kmax ∧ s.kdiv ≠ 0) ∧
    (∀ f, imageFormat i = some f → s.imgBase.toNat + imageBytes f s.imgW s.imgH ≤ s.params.imemSize) := by
  have hb : ∀ f, boundsCheck f s = .none ↔ s.imgBase.toNat + imageBytes f s.imgW s.imgH ≤ s.params.imemSize := by
    intro f
    unfold boundsCheck
    split <;> simp <;> omega
  have hk : kernelCheck s = .none ↔ s.ksize.toNat % 2 = 1 ∧ s.ksize.toNat ≤ s.params.kmax ∧ s.kdiv ≠ 0 := by
    unfold kernelCheck
    split
    · simp only [reduceCtorEq, false_iff]
      omega
    · split
      · simp_all
      · simp_all
  by_cases hc : isConv i = true
  · obtain ⟨f, hf⟩ := isConv_format hc
    rw [check_of_conv hc hf]
    simp only [hc, hf, true_implies, Option.some.injEq, forall_eq']
    split
    · rename_i h
      exact ⟨fun h' => absurd h' h, fun h' => absurd (hk.mpr h'.1) h⟩
    · rename_i h
      rw [hb f]
      exact ⟨fun h' => ⟨hk.mp (not_not.mp h), h'⟩, fun h' => h'.2⟩
  · have hc' : isConv i = false := by simpa using hc
    rw [check_of_not_conv hc']
    cases hf : imageFormat i with
    | none => simp [hc']
    | some f => simp [hc', hb f]

/-! ### The meanings (R213, R214) -/

theorem lifecycle_idle {s : State} (h : s.engine = .idle) (i : Instr) (e : Latch → State → State) :
    lifecycle i e s = .next (s.issue i) := by
  simp [lifecycle, h]

theorem lifecycle_busy {s : State} {l : Latch} (h : s.engine = .busy l) (i : Instr) (e : Latch → State → State) :
    lifecycle i e s = .next (e l s).complete := by
  simp [lifecycle, h]

/-- The writes of each command's execution (R213). -/
def effectOf : Instr → Latch → State → State
  | .nop, _, s => s
  | .convG, l, s => convolve .gray l s
  | .convC, l, s => convolve .color l s
  | .histoG, l, s => histogram .gray l s
  | .histoC, l, s => histogram .color l s
  | .eqlut, _, s => buildTable s
  | .lutapG, l, s => applyTable .gray l s
  | .lutapC, l, s => applyTable .color l s
  | .equalG, l, s => equalize .gray l s
  | .equalC, l, s => equalize .color l s
  | .loadkBox, _, s => loadKernel boxTable s
  | .loadkGauss, _, s => loadKernel gaussTable s
  | .loadkSharpen, _, s => loadKernel s.params.presetW2 s
  | .loadkOutline, _, s => loadKernel s.params.presetW3 s
  | .loadkEmboss, _, s => loadKernel s.params.presetW4 s

/-- On an idle engine every meaning issues its command. -/
theorem exec_idle {s : State} (h : s.engine = .idle) (i : Instr) : exec i s = .next (s.issue i) := by
  cases i <;> simp only [exec, execNop, execConvG, execConvC, execHistoG, execHistoC, execEqlut, execLutapG, execLutapC, execEqualG, execEqualC,
    execLoadkBox, execLoadkGauss, execLoadkSharpen, execLoadkOutline, execLoadkEmboss,
    lifecycle_idle h]

/-- On a busy engine every meaning performs its command's writes and completes. -/
theorem exec_busy {s : State} {l : Latch} (h : s.engine = .busy l) (i : Instr) :
    exec i s = .next (effectOf i l s).complete := by
  cases i <;> simp only [exec, execNop, execConvG, execConvC, execHistoG, execHistoC, execEqlut, execLutapG, execLutapC, execEqualG, execEqualC,
    execLoadkBox, execLoadkGauss, execLoadkSharpen, execLoadkOutline, execLoadkEmboss,
    lifecycle_busy h, effectOf]

/-- Execution writes IMEM, HIST, LUT, KMEM, KSIZE, KDIV and EQ_* at most (R213): everything else is as before. -/
theorem effectOf_frame (i : Instr) (l : Latch) (s : State) :
    (effectOf i l s).params = s.params ∧ (effectOf i l s).status = s.status ∧ (effectOf i l s).ier = s.ier ∧
    (effectOf i l s).cmd = s.cmd ∧ (effectOf i l s).imgBase = s.imgBase ∧ (effectOf i l s).imgW = s.imgW ∧
    (effectOf i l s).imgH = s.imgH ∧ (effectOf i l s).engine = s.engine ∧ (effectOf i l s).script = s.script ∧
    (effectOf i l s).turns = s.turns ∧ (effectOf i l s).response = s.response ∧ (effectOf i l s).draws = s.draws := by
  cases i <;> simp [effectOf, equalize]

/-! ### The soft reset (R218, R219) -/

theorem softReset_idle {s : State} (h : s.engine = .idle) : s.softReset = s.resetRegisters := by
  simp [State.softReset, h]

theorem softReset_busy {s : State} {l : Latch} (h : s.engine = .busy l) : s.softReset = (s.abort l).resetRegisters := by
  simp [State.softReset, h]

/-- Every address an aborted command leaves unspecified lies in its image region (R70, R219). -/
theorem abortedAddresses_mem_region {l : Latch} {a : Nat} (h : a ∈ abortedAddresses l) :
    ∃ f, imageFormat l.instr = some f ∧ l.imgBase.toNat ≤ a ∧
      a < l.imgBase.toNat + imageBytes f l.imgW l.imgH := by
  unfold abortedAddresses at h
  unfold imageFormat
  split at h <;> rename_i heq <;> rw [heq]
  · rename_i f
    simp only [List.mem_flatMap, List.mem_map, List.mem_range] at h
    obtain ⟨⟨x, y⟩, hp, c, hc, rfl⟩ := h
    have hi := interior_iff.mp (mem_interiorPixels.mp hp)
    exact ⟨f, rfl, pix_mem_region (by omega) (by omega) hc⟩
  · rename_i f
    simp only [List.mem_map, List.mem_range] at h
    obtain ⟨k, hk, rfl⟩ := h
    exact ⟨f, rfl, by omega, by omega⟩
  · rename_i f
    simp only [List.mem_map, List.mem_range] at h
    obtain ⟨k, hk, rfl⟩ := h
    exact ⟨f, rfl, by omega, by omega⟩
  all_goals simp at h

end Sys2Proof.Machine
end

