-- ==== Sys2Proof/Laws/Convolution.lean ====
section
/-! SUPPORT. What a convolution writes, byte by byte. -/

namespace Sys2Proof.Machine

theorem mem_convCells {l : Latch} {f : Format} {kmem : List Half} {cell : Host.Cell} :
    cell ∈ convCells l f kmem ↔ ∃ x y c, l.interior x y = true ∧ c < bpp f ∧
      cell = (l.pix f x y c, clampRound (convSum l f kmem x y c) l.kdiv.toNat) := by
  simp only [convCells, List.mem_flatMap, List.mem_map, List.mem_range]
  constructor
  · rintro ⟨⟨x, y⟩, hp, c, hc, rfl⟩
    exact ⟨x, y, c, mem_interiorPixels.mp hp, hc, rfl⟩
  · rintro ⟨x, y, c, hi, hc, rfl⟩
    exact ⟨(x, y), mem_interiorPixels.mpr hi, c, hc, rfl⟩

/-- An interior byte after a convolution (R123). -/
theorem read_convCells_interior {m : Memory} (hm : m.wf = true) {l : Latch} {f : Format} (kmem : List Half)
    {x y c : Nat} (hi : l.interior x y = true) (hc : c < bpp f) :
    (m.writeCells (convCells l f kmem)).read (l.pix f x y c) = clampRound (convSum l f kmem x y c) l.kdiv.toNat := by
  refine read_writeCells_mem hm (mem_convCells.mpr ⟨x, y, c, hi, hc, rfl⟩) fun cell hcell ha => ?_
  obtain ⟨x', y', c', hi', hc', rfl⟩ := mem_convCells.mp hcell
  have h1 := interior_iff.mp hi
  have h2 := interior_iff.mp hi'
  obtain ⟨rfl, rfl, rfl⟩ := pix_inj (by omega) (by omega) hc' hc ha
  rfl

/-- The frame of a convolution: every byte but the interior ones (R123). -/
theorem read_convCells_frame (m : Memory) {l : Latch} {f : Format} (kmem : List Half) {a : Nat}
    (h : ∀ x y c, l.interior x y = true → c < bpp f → a ≠ l.pix f x y c) :
    (m.writeCells (convCells l f kmem)).read a = m.read a := by
  refine read_writeCells_ne m fun cell hcell => ?_
  obtain ⟨x, y, c, hi, hc, rfl⟩ := mem_convCells.mp hcell
  exact (h x y c hi hc).symm

/-- A sum over the coordinates of a square is the double sum over its rows and columns. -/
theorem coords_sum (k : Nat) (g : Nat → Nat → Int) :
    ((coords k k).map fun p => g p.1 p.2).sum = ∑ r ∈ Finset.range k, ∑ q ∈ Finset.range k, g q r := by
  have h1 : ((coords k k).map fun p => g p.1 p.2).sum = ∑ p ∈ (coords k k).toFinset, g p.1 p.2 :=
    (List.sum_toFinset (fun p : Nat × Nat => g p.1 p.2) (coords_nodup k k)).symm
  rw [h1, coords_toFinset, Finset.sum_product_right]

/-- The sum of R121 as a double sum over kernel rows and columns. -/
theorem convSum_eq (l : Latch) (f : Format) (kmem : List Half) (x y c : Nat) :
    convSum l f kmem x y c = ∑ r ∈ Finset.range l.ksize.toNat, ∑ q ∈ Finset.range l.ksize.toNat,
      kernelWeight kmem (r * l.ksize.toNat + q) * sample (l.p0 f (x + q - l.half) (y + r - l.half) c) :=
  coords_sum l.ksize.toNat fun q r =>
    kernelWeight kmem (r * l.ksize.toNat + q) * sample (l.p0 f (x + q - l.half) (y + r - l.half) c)

end Sys2Proof.Machine
end

