-- ==== Sys2Proof/Laws/Encoding.lean ====
section
/-! SUPPORT. A word and its fields are two views of the same bits (spec/30_encoding.md R91). -/

namespace Sys2Proof

theorem wordOfFields_fieldsOf (w : Word) : wordOfFields (fieldsOf w) = w := by
  simp only [wordOfFields, fieldsOf]
  apply BitVec.eq_of_getLsbD_eq
  intro i hi
  simp only [BitVec.getLsbD_append, BitVec.getLsbD_extractLsb']
  by_cases h1 : i < 4
  · simp [h1]
  · by_cases h2 : i < 4 + 1
    · obtain rfl : i = 4 := by omega
      simp
    · by_cases h3 : i < 4 + (1 + 3)
      · have e : 5 + (i - (4 + 1)) = i := by omega
        have e' : i - (4 + 1) < 3 := by omega
        simp [h1, e, e', Nat.sub_sub, show ¬ i - 4 = 0 by omega]
      · have e : 8 + (i - (4 + (1 + 3))) = i := by omega
        have e' : i - (4 + (1 + 3)) < 24 := by omega
        simp [h1, e, e', Nat.sub_sub, show ¬ i - 4 = 0 by omega, show ¬ i - 5 < 3 by omega]

/-- The four bytes of a value make up its low word (R64). -/
theorem wordOfBytes_ofNat (v : Nat) :
    wordOfBytes (BitVec.ofNat 8 (v / 2 ^ (8 * 0))) (BitVec.ofNat 8 (v / 2 ^ (8 * 1))) (BitVec.ofNat 8 (v / 2 ^ (8 * 2)))
      (BitVec.ofNat 8 (v / 2 ^ (8 * 3))) = BitVec.ofNat 32 v := by
  apply BitVec.eq_of_toNat_eq
  simp only [wordOfBytes, BitVec.toNat_append, BitVec.toNat_ofNat, Nat.shiftLeft_eq]
  rw [Nat.mul_comm _ (2 ^ 8), ← Nat.two_pow_add_eq_or_of_lt (i := 8) (Nat.mod_lt _ (by norm_num)),
    Nat.mul_comm _ (2 ^ 8), ← Nat.two_pow_add_eq_or_of_lt (i := 8) (Nat.mod_lt _ (by norm_num)),
    Nat.mul_comm _ (2 ^ 8), ← Nat.two_pow_add_eq_or_of_lt (i := 8) (Nat.mod_lt _ (by norm_num))]
  omega

end Sys2Proof
end

