-- ==== Sys2Proof/Laws/Histogram.lean ====
section
/-! SUPPORT. What an accumulation counts, the cumulative sums, and what applying a table writes, byte by byte. -/

namespace Sys2Proof.Machine

/-! ### Counting (R161) -/

theorem bump_get (h : Vector Word 256) (k : Byte) (v : Fin 256) :
    (bump h k)[v] = if k = BitVec.ofFin v then h[v] + 1 else h[v] := by
  have hk := k.isLt
  simp only [bump, Fin.getElem_fin, Vector.getElem_set]
  by_cases hv : k = BitVec.ofFin v
  · subst hv
    simp
  · have : k.toNat ≠ v.val := fun h' => hv (BitVec.eq_of_toNat_eq (by simpa using h'))
    simp [this, hv]

theorem foldl_bump_get (ks : List Byte) (h : Vector Word 256) (v : Fin 256) :
    (ks.foldl bump h)[v] = h[v] + BitVec.ofNat 32 (ks.count (BitVec.ofFin v)) := by
  induction ks generalizing h with
  | nil => simp
  | cons k rest ih =>
    rw [List.foldl_cons, ih, bump_get, List.count_cons]
    by_cases hk : k = BitVec.ofFin v
    · subst hk
      simp only [if_true, beq_self_eq_true]
      apply BitVec.eq_of_toNat_eq
      have h1 : (1 : Word).toNat = 1 := rfl
      simp only [BitVec.toNat_add, BitVec.toNat_ofNat]
      omega
    · simp [hk]

/-- No image has as many pixels as a 32-bit count holds (R41). -/
theorem pixels_length_lt (l : Latch) : l.pixels.length < 2 ^ 32 := by
  have hw := l.imgW.isLt
  have hh := l.imgH.isLt
  rw [Latch.pixels, coords_length]
  calc l.imgW.toNat * l.imgH.toNat ≤ 65535 * 65535 := Nat.mul_le_mul (by omega) (by omega)
    _ < 2 ^ 32 := by norm_num

/-- Each bin holds exactly how many pixels have its key (R161). -/
theorem accumulate_get (f : Format) (l : Latch) (v : Fin 256) :
    ((accumulate f l)[v]).toNat = (l.pixels.map (pixelKey l f)).count (BitVec.ofFin v) := by
  have hlt := pixels_length_lt l
  have hle := List.count_le_length (a := BitVec.ofFin v) (l := l.pixels.map (pixelKey l f))
  rw [List.length_map] at hle
  rw [accumulate, foldl_bump_get, Fin.getElem_fin, Vector.getElem_replicate]
  have h0 : (0 : Word).toNat = 0 := rfl
  simp only [BitVec.toNat_add, BitVec.toNat_ofNat]
  omega

/-- A count over the pixels is the size of a finite set of coordinates. -/
theorem count_pixels (l : Latch) (g : Nat × Nat → Byte) (b : Byte) :
    (l.pixels.map g).count b =
      ((Finset.range l.imgW.toNat ×ˢ Finset.range l.imgH.toNat).filter fun p => g p = b).card := by
  have h1 : (l.pixels.map g).count b = (l.pixels.filter fun p => g p = b).length := by
    rw [List.count_eq_countP, List.countP_map, List.countP_eq_length_filter]
    rfl
  rw [h1, Latch.pixels, ← List.toFinset_card_of_nodup ((coords_nodup _ _).filter _), List.toFinset_filter]
  congr 1
  ext p
  obtain ⟨x, y⟩ := p
  simp

/-! ### Cumulative sums (R170, R171) -/

/-- The recurrence of R170. -/
theorem cdf_succ (h : Vector Word 256) (i : Nat) : cdf h (i + 1) = cdf h i + (h[i + 1]?.getD 0).toNat := by
  have hg : h.toList[i + 1]? = h[i + 1]? := by simp
  rw [cdf, List.take_add_one, hg, List.map_append, List.sum_append, cdf]
  cases h[i + 1]? <;> simp

theorem cdf_zero (h : Vector Word 256) : cdf h 0 = (h[0]).toNat := by
  have hg : h.toList[0]? = some h[0] := by simp
  rw [cdf, List.take_add_one, hg]
  simp

theorem cdf_eq_sum (h : Vector Word 256) (i : Nat) :
    cdf h i = ∑ j ∈ Finset.range (i + 1), (h[j]?.getD 0).toNat := by
  induction i with
  | zero => simp [cdf_zero]
  | succ i ih => rw [cdf_succ, ih, Finset.sum_range_succ _ (i + 1)]

theorem cdf_mono (h : Vector Word 256) {i j : Nat} (hij : i ≤ j) : cdf h i ≤ cdf h j := by
  induction hij with
  | refl => exact Nat.le_refl _
  | step _ ih => exact Nat.le_trans ih (by rw [cdf_succ]; exact Nat.le_add_right _ _)

/-- N is the sum of all bins. -/
theorem histTotal_eq_sum (h : Vector Word 256) : histTotal h = ∑ j : Fin 256, (h[j]).toNat := by
  rw [histTotal, cdf_eq_sum, Finset.sum_range]
  refine Finset.sum_congr rfl fun j _ => ?_
  simp

/-- cdf[i] is the sum of the bins up to i. -/
theorem cdf_eq_sum_filter (h : Vector Word 256) (i : Fin 256) :
    cdf h i.val = ∑ j ∈ Finset.univ.filter (fun j : Fin 256 => j ≤ i), (h[j]).toNat := by
  rw [cdf_eq_sum, Finset.sum_filter]
  have h1 : ∑ j : Fin 256, (if j ≤ i then (h[j]).toNat else 0)
      = ∑ j ∈ Finset.range 256, (if j ≤ i.val then (h[j]?.getD 0).toNat else 0) := by
    rw [Finset.sum_range]
    refine Finset.sum_congr rfl fun j _ => ?_
    rw [Vector.getElem?_eq_getElem j.isLt]
    rfl
  have h2 : (Finset.range 256).filter (fun j => j ≤ i.val) = Finset.range (i.val + 1) := by
    ext j
    have := i.isLt
    rw [Finset.mem_filter, Finset.mem_range, Finset.mem_range]
    omega
  rw [h1, ← Finset.sum_filter, h2]

theorem cdf_le_total (h : Vector Word 256) (i : Fin 256) : cdf h i.val ≤ histTotal h := cdf_mono h (by omega)

/-- The smallest occupied bin, when there is one. -/
theorem firstOccupied_spec {h : Vector Word 256} {m : Nat} (hm : firstOccupied h = some m) :
    ∃ hlt : m < 256, h[m] ≠ 0 ∧ ∀ j : Fin 256, j.val < m → h[j] = 0 := by
  obtain ⟨hlt, hne, hbefore⟩ := List.findIdx?_eq_some_iff_getElem.mp hm
  have hlt' : m < 256 := by simpa using hlt
  exact ⟨hlt', by simpa using hne, fun j hj => by simpa using hbefore j.val hj⟩

/-- No occupied bin: every bin is 0. -/
theorem firstOccupied_none {h : Vector Word 256} (hn : firstOccupied h = none) (j : Fin 256) : h[j] = 0 := by
  have := List.findIdx?_eq_none_iff.mp hn h[j] (by simp)
  simpa using this

theorem cdfMin_le_total (h : Vector Word 256) : cdfMin h ≤ histTotal h := by
  unfold cdfMin
  split
  · exact Nat.zero_le _
  · rename_i m hm
    obtain ⟨hlt, _⟩ := firstOccupied_spec hm
    exact cdf_mono h (by omega)

/-- cdf_min of a histogram with lowest occupied bin m (R171). -/
theorem cdfMin_of_lowest {h : Vector Word 256} (m : Fin 256) (hm : h[m] ≠ 0) (hb : ∀ j < m, h[j] = 0) :
    cdfMin h = cdf h m.val := by
  unfold cdfMin
  split
  · rename_i hn
    exact absurd (firstOccupied_none hn m) hm
  · rename_i k hk
    obtain ⟨hlt, hne, hbefore⟩ := firstOccupied_spec hk
    rcases Nat.lt_trichotomy k m.val with h1 | h1 | h1
    · exact absurd (hb ⟨k, hlt⟩ h1) hne
    · rw [h1]
    · exact absurd (hbefore m h1) hm

/-- cdf_min of an empty histogram (R171). -/
theorem cdfMin_of_empty {h : Vector Word 256} (h0 : ∀ j : Fin 256, h[j] = 0) : cdfMin h = 0 := by
  unfold cdfMin
  split
  · rfl
  · rename_i k hk
    obtain ⟨hlt, hne, _⟩ := firstOccupied_spec hk
    exact absurd (h0 ⟨k, hlt⟩) hne

theorem degenerate_iff (h : Vector Word 256) : degenerate h = true ↔ histTotal h = cdfMin h := by
  have := cdfMin_le_total h
  simp only [degenerate, Bool.or_eq_true, beq_iff_eq]
  omega

/-- The identity table in the degenerate case (R172). -/
theorem remapTable_degenerate {h : Vector Word 256} (hd : degenerate h = true) (i : Fin 256) :
    (remapTable h)[i] = BitVec.ofNat 8 i.val := by
  simp [remapTable, hd]

/-- The computed table otherwise (R172). -/
theorem remapTable_get {h : Vector Word 256} (hd : degenerate h = false) (i : Fin 256) :
    (remapTable h)[i] = if cdf h i.val = 0 then 0
      else BitVec.ofInt 8 (rnd (((cdf h i.val : Int) - (cdfMin h : Int)) * 255)
        ((histTotal h : Int) - (cdfMin h : Int))) := by
  simp [remapTable, hd]

/-! ### Applying a table (R185, R186) -/

theorem lutAt_eq (lut : Vector Byte 256) (b : Byte) : lutAt lut b = lut[b.toFin] := rfl

/-- The byte of one channel of a color pixel. -/
def Bgr.channel (p : Bgr) : Nat → Byte
  | 0 => p.b
  | 1 => p.g
  | _ => p.r

/-- The byte LUTAP writes for one channel of one pixel. -/
def lutOut (lut : Vector Byte 256) (l : Latch) (f : Format) (x y c : Nat) : Byte :=
  match f with
  | .gray => lutAt lut (l.p0 .gray x y c)
  | .color => (project lut (l.bgr x y)).channel c

theorem mem_lutCells {lut : Vector Byte 256} {l : Latch} {f : Format} {cell : Host.Cell} :
    cell ∈ lutCells lut l f ↔ ∃ x y c, x < l.imgW.toNat ∧ y < l.imgH.toNat ∧ c < bpp f ∧
      cell = (l.pix f x y c, lutOut lut l f x y c) := by
  cases f with
  | gray =>
    simp only [lutCells, List.mem_map, lutOut, bpp]
    constructor
    · rintro ⟨⟨x, y⟩, hp, rfl⟩
      exact ⟨x, y, 0, (mem_pixels.mp hp).1, (mem_pixels.mp hp).2, by omega, rfl⟩
    · rintro ⟨x, y, c, hx, hy, hc, rfl⟩
      obtain rfl : c = 0 := by omega
      exact ⟨(x, y), mem_pixels.mpr ⟨hx, hy⟩, rfl⟩
  | color =>
    simp only [lutCells, List.mem_flatMap, lutOut, bpp]
    constructor
    · rintro ⟨⟨x, y⟩, hp, hmem⟩
      simp only [List.mem_cons, List.not_mem_nil, or_false] at hmem
      rcases hmem with rfl | rfl | rfl
      · exact ⟨x, y, 0, (mem_pixels.mp hp).1, (mem_pixels.mp hp).2, by omega, rfl⟩
      · exact ⟨x, y, 1, (mem_pixels.mp hp).1, (mem_pixels.mp hp).2, by omega, rfl⟩
      · exact ⟨x, y, 2, (mem_pixels.mp hp).1, (mem_pixels.mp hp).2, by omega, rfl⟩
    · rintro ⟨x, y, c, hx, hy, hc, rfl⟩
      refine ⟨(x, y), mem_pixels.mpr ⟨hx, hy⟩, ?_⟩
      obtain rfl | rfl | rfl : c = 0 ∨ c = 1 ∨ c = 2 := by omega
      all_goals simp [Bgr.channel]

/-- A byte of the image after a table was applied. -/
theorem read_lutCells_pixel {m : Memory} (hm : m.wf = true) (lut : Vector Byte 256) {l : Latch} {f : Format}
    {x y c : Nat} (hx : x < l.imgW.toNat) (hy : y < l.imgH.toNat) (hc : c < bpp f) :
    (m.writeCells (lutCells lut l f)).read (l.pix f x y c) = lutOut lut l f x y c := by
  refine read_writeCells_mem hm (mem_lutCells.mpr ⟨x, y, c, hx, hy, hc, rfl⟩) fun cell hcell ha => ?_
  obtain ⟨x', y', c', hx', _, hc', rfl⟩ := mem_lutCells.mp hcell
  obtain ⟨rfl, rfl, rfl⟩ := pix_inj hx' hx hc' hc ha
  rfl

/-- The frame of applying a table: every byte outside the image. -/
theorem read_lutCells_frame (m : Memory) (lut : Vector Byte 256) {l : Latch} {f : Format} {a : Nat}
    (h : ∀ x y c, x < l.imgW.toNat → y < l.imgH.toNat → c < bpp f → a ≠ l.pix f x y c) :
    (m.writeCells (lutCells lut l f)).read a = m.read a := by
  refine read_writeCells_ne m fun cell hcell => ?_
  obtain ⟨x, y, c, hx, hy, hc, rfl⟩ := mem_lutCells.mp hcell
  exact (h x y c hx hy hc).symm

end Sys2Proof.Machine
end

