-- ==== Sys2Proof/Laws/HostPort.lean ====
section
/-! SUPPORT. Routing, the register map, and what a host access and a step can do, said once each. -/

namespace Sys2Proof.Machine

/-! ### Routing and the register map -/

theorem route_reg (p : Params) {offset : Nat} (h : offset < 0x1000) :
    route p (p.regBase + offset) = some (.register offset) := by
  unfold route
  rw [if_pos (by omega)]
  simp

theorem route_imem {p : Params} (hp : p.disjoint = true) {a : Nat} (h : a < p.imemSize) :
    route p (p.imemBase + a) = some (.imem a) := by
  simp only [Params.disjoint, Bool.or_eq_true, decide_eq_true_eq] at hp
  unfold route
  rw [if_neg (by omega), if_pos (by omega)]
  simp

theorem regAt_hist (kmax : Nat) (i : Fin 256) : regAt kmax (0x400 + 4 * i.val) = .hist i := by
  have := i.isLt
  unfold regAt
  rw [dif_pos (by omega)]
  congr 1
  ext
  simp

theorem regAt_lutw (kmax : Nat) (j : Fin 64) : regAt kmax (0x800 + 4 * j.val) = .lutw j := by
  have := j.isLt
  unfold regAt
  rw [dif_neg (by omega), dif_pos (by omega)]
  congr 1
  ext
  simp

theorem regAt_kmem {kmax i : Nat} (h : i < kmax * kmax) : regAt kmax (0xC00 + 4 * i) = .kmem i := by
  unfold regAt
  rw [dif_neg (by omega), dif_neg (by omega), if_pos (by omega)]
  congr 1
  omega

/-- The offsets that R37 reserves. -/
theorem regAt_reserved {kmax offset : Nat} (h4 : offset % 4 = 0)
    (h : (0x038 ≤ offset ∧ offset < 0x400) ∨ (0x900 ≤ offset ∧ offset < 0xC00) ∨ 0xC00 + 4 * (kmax * kmax) ≤ offset) :
    regAt kmax offset = .reserved offset := by
  unfold regAt
  rw [dif_neg (by omega), dif_neg (by omega), if_neg (by omega)]
  split <;> first | rfl | omega

/-- The engine is idle or busy. -/
theorem engine_cases (s : State) : s.engine = .idle ∨ ∃ l, s.engine = .busy l := by
  cases s.engine with
  | idle => exact .inl rfl
  | busy l => exact .inr ⟨l, rfl⟩

/-- The script is at its end or has a next line. -/
theorem script_cases (s : State) : s.script = [] ∨ ∃ line rest, s.script = line :: rest := by
  cases s.script with
  | nil => exact .inl rfl
  | cons line rest => exact .inr ⟨line, rest, rfl⟩

/-! ### Totality -/

/-- No meaning stops. -/
theorem exec_total (i : Instr) (s : State) : ∃ t, exec i s = .next t := by
  cases h : s.engine with
  | idle => exact ⟨_, exec_idle h i⟩
  | busy l => exact ⟨_, exec_busy h i⟩

/-- What a CMD write does (R211, R216, R237): dropped while busy, else stored and rejected or issued. -/
theorem writeCmd_cases (s : State) (w : Word) :
    (∃ l, s.engine = .busy l ∧ writeCmd s w = .next s.drop) ∨
    (s.engine = .idle ∧ ∃ e, decode w = .error e ∧ writeCmd s w = .next ({ s with cmd := w }.reject .illegalCmd)) ∨
    (s.engine = .idle ∧ ∃ i, decode w = .ok i ∧ writeCmd s w = exec i { s with cmd := w } ∧
      exec i { s with cmd := w } = .next ({ s with cmd := w }.issue i)) := by
  rcases engine_cases s with h | ⟨l, h⟩
  · cases hd : decode w with
    | error e => exact .inr (.inl ⟨h, e, rfl, by simp [writeCmd, h, hd]⟩)
    | ok i => exact .inr (.inr ⟨h, i, rfl, by simp [writeCmd, h, hd], exec_idle (s := { s with cmd := w }) h i⟩)
  · exact .inl ⟨l, h, by simp [writeCmd, h]⟩

theorem writeReg_total (s : State) (v : Word) (r : Reg) : ∃ t, writeReg s v r = .next t := by
  cases r <;> try exact ⟨_, rfl⟩
  rcases writeCmd_cases s v with ⟨l, _, h⟩ | ⟨_, e, _, h⟩ | ⟨_, i, _, h, h'⟩
  · exact ⟨_, h⟩
  · exact ⟨_, h⟩
  · exact ⟨_, h.trans h'⟩

theorem accessReg_total (s : State) (r : Reg) (k : AccessKind) : ∃ t, accessReg s r k = .next t := by
  unfold accessReg
  split
  · cases k <;> exact ⟨_, rfl⟩
  · cases k with
    | read => exact ⟨_, rfl⟩
    | write v => exact writeReg_total _ v r

theorem accessImem_total (s : State) (a w : Nat) (k : AccessKind) : ∃ t, accessImem s a w k = .next t := by
  unfold accessImem
  split <;> cases k <;> exact ⟨_, rfl⟩

/-! ### The host's access -/

theorem hostAccess_reg (s : State) {offset : Nat} (h : offset < 0x1000) (h4 : offset % 4 = 0) (k : AccessKind) :
    hostAccess s ⟨s.params.regBase + offset, 4, k⟩ = accessReg s (regAt s.params.kmax offset) k := by
  simp [hostAccess, route_reg s.params h, HostAccess.registerAligned, h4]

theorem hostAccess_imem (s : State) (hp : s.params.disjoint = true) {a w : Nat} (h : a < s.params.imemSize)
    (hw : w = 1 ∨ w = 2 ∨ w = 4) (hm : a % w = 0) (k : AccessKind) :
    hostAccess s ⟨s.params.imemBase + a, w, k⟩ = accessImem s a w k := by
  simp only [hostAccess, route_imem hp h, HostAccess.imemAligned, hm]
  rw [if_pos]
  rcases hw with rfl | rfl | rfl <;> rfl

/-- Everything a host access can do: one of three faults, or an access to a register or to image memory. -/
theorem hostAccess_cases (s : State) (a : HostAccess) :
    (route s.params a.addr = none ∧ hostAccess s a = .fault (.notAddressed a)) ∨
    (∃ offset, route s.params a.addr = some (.register offset) ∧
      ((a.registerAligned offset = false ∧ hostAccess s a = .fault (.registerBusError a)) ∨
       (a.registerAligned offset = true ∧
        hostAccess s a = accessReg s (regAt s.params.kmax offset) a.kind))) ∨
    (∃ addr, route s.params a.addr = some (.imem addr) ∧
      ((a.imemAligned addr = false ∧ hostAccess s a = .fault (.imemBusError a)) ∨
       (a.imemAligned addr = true ∧ hostAccess s a = accessImem s addr a.width a.kind))) := by
  unfold hostAccess
  cases h : route s.params a.addr with
  | none => exact .inl ⟨rfl, rfl⟩
  | some tg =>
    cases tg with
    | register offset =>
      refine .inr (.inl ⟨offset, rfl, ?_⟩)
      rcases Bool.eq_false_or_eq_true (a.registerAligned offset) with ha | ha
      · exact .inr ⟨ha, by simp [ha]⟩
      · exact .inl ⟨ha, by simp [ha]⟩
    | imem addr =>
      refine .inr (.inr ⟨addr, rfl, ?_⟩)
      rcases Bool.eq_false_or_eq_true (a.imemAligned addr) with ha | ha
      · exact .inr ⟨ha, by simp [ha]⟩
      · exact .inl ⟨ha, by simp [ha]⟩

/-! ### The step -/

theorem busy_of_busy {s : State} {l : Latch} (h : s.engine = .busy l) : s.busy = true := by
  simp [State.busy, h]

theorem busy_of_idle {s : State} (h : s.engine = .idle) : s.busy = false := by
  simp [State.busy, h]

/-- A script line of an idle engine is the host's move. -/
theorem step_idle {s : State} {line : HostLine} {rest : List HostLine} (h : s.engine = .idle)
    (hs : s.script = line :: rest) : step s = hostStep s := by
  simp [step, machineStep, mover, takeTurn, h, hs]

/-- With nothing to do the machine waits (R274). -/
theorem step_waiting {s : State} (h : s.engine = .idle) (hs : s.script = []) : step s = .next s := by
  simp [step, machineStep, mover, h, hs]

/-- A busy engine moves when the script is at its end. -/
theorem step_engine_alone {s : State} {l : Latch} (h : s.engine = .busy l) (hs : s.script = []) :
    step s = exec l.instr s := by
  simp [step, machineStep, mover, takeTurn, engineStep, h, hs]

/-- A busy engine moves when `turns` says so or has run out. -/
theorem step_engine_turn {s : State} {l : Latch} {line : HostLine} {rest : List HostLine} (h : s.engine = .busy l)
    (hs : s.script = line :: rest) (ht : s.turns.headD .engine = .engine) :
    step s = exec l.instr { s with turns := s.turns.tail } := by
  simp only [step, machineStep, mover, takeTurn, h, hs, ht]
  simp [engineStep]

/-- The host moves beside a busy engine when `turns` says so. -/
theorem step_host_turn {s : State} {l : Latch} {line : HostLine} {rest : List HostLine} {ts : List Agent}
    (h : s.engine = .busy l) (hs : s.script = line :: rest) (ht : s.turns = .host :: ts) :
    step s = hostStep { s with turns := ts } := by
  simp [step, machineStep, mover, takeTurn, h, hs, ht]

/-- Who moves, read off the state. -/
theorem mover_host_cases {s : State} {line : HostLine} {rest : List HostLine} (hs : s.script = line :: rest)
    (h : mover s = some .host) :
    s.engine = .idle ∨ ∃ l ts, s.engine = .busy l ∧ s.turns = .host :: ts := by
  cases he : s.engine with
  | idle => exact .inl rfl
  | busy l =>
    refine .inr ⟨l, ?_⟩
    cases ht : s.turns with
    | nil => simp [mover, he, hs, ht] at h
    | cons a ts =>
      simp only [mover, he, hs, ht, List.headD_cons, Option.some.injEq] at h
      exact ⟨ts, rfl, by rw [h]⟩

/-- Everything a step can be: nothing, the engine's completion, or the host's next line, the state being `s` but for
`turns`. -/
theorem step_cases (s : State) :
    (s.engine = .idle ∧ s.script = [] ∧ step s = .next s) ∨
    (∃ l ts, s.engine = .busy l ∧ step s = exec l.instr { s with turns := ts }) ∨
    (∃ line rest ts, s.script = line :: rest ∧ mover s = some .host ∧
      (s.engine = .idle → ts = s.turns) ∧ (s.engine ≠ .idle → ts = s.turns.tail) ∧
      step s = hostStep { s with turns := ts }) := by
  rcases engine_cases s with he | ⟨l, he⟩ <;> rcases script_cases s with hs | ⟨line, rest, hs⟩
  · exact .inl ⟨he, hs, step_waiting he hs⟩
  · exact .inr (.inr ⟨line, rest, s.turns, hs, by simp [mover, he, hs], fun _ => rfl, fun h => absurd he h,
      step_idle he hs⟩)
  · exact .inr (.inl ⟨l, s.turns, he, step_engine_alone he hs⟩)
  · have hm : mover s = some (s.turns.headD .engine) := by simp [mover, he, hs]
    cases ht : s.turns.headD .engine with
    | engine => exact .inr (.inl ⟨l, s.turns.tail, he, step_engine_turn he hs ht⟩)
    | host =>
      rw [ht] at hm
      rcases mover_host_cases hs hm with h | ⟨l', ts, h1, h2⟩
      · simp [he] at h
      · exact .inr (.inr ⟨line, rest, ts, hs, hm, fun h => by simp [he] at h, fun _ => by simp [h2],
          step_host_turn h1 hs h2⟩)

end Sys2Proof.Machine
end

