-- ==== Sys2Proof/Laws/PerInstr.lean ====
section
/-! SUPPORT. Per-instruction lemmas: the encoder writes the fields of R95 and R96 into a word that meets every condition
of R97. -/

namespace Sys2Proof.Laws.EncodeLegal

/-- The word of the command reads back as its fields and is legal. -/
def Statement (i : Instr) : Prop := fieldsOf (encode i) = i.fields ∧ i.fields.legal = true

theorem nop : Statement .nop := ⟨by decide, by decide⟩
theorem convG : Statement .convG := ⟨by decide, by decide⟩
theorem convC : Statement .convC := ⟨by decide, by decide⟩
theorem histoG : Statement .histoG := ⟨by decide, by decide⟩
theorem histoC : Statement .histoC := ⟨by decide, by decide⟩
theorem eqlut : Statement .eqlut := ⟨by decide, by decide⟩
theorem lutapG : Statement .lutapG := ⟨by decide, by decide⟩
theorem lutapC : Statement .lutapC := ⟨by decide, by decide⟩
theorem equalG : Statement .equalG := ⟨by decide, by decide⟩
theorem equalC : Statement .equalC := ⟨by decide, by decide⟩
theorem loadkBox : Statement .loadkBox := ⟨by decide, by decide⟩
theorem loadkGauss : Statement .loadkGauss := ⟨by decide, by decide⟩
theorem loadkSharpen : Statement .loadkSharpen := ⟨by decide, by decide⟩
theorem loadkOutline : Statement .loadkOutline := ⟨by decide, by decide⟩
theorem loadkEmboss : Statement .loadkEmboss := ⟨by decide, by decide⟩

end Sys2Proof.Laws.EncodeLegal
end

