-- ==== Sys2Proof/Tests/Slice0.lean ====
section
/-! SUPPORT. Small tests, expected values from the words and rules of spec/ and the vectors of spec/95_test_vectors.md (named in each docstring); and for every statement with hypotheses a witness that meets them. -/

namespace Sys2Proof.Tests

set_option Elab.async false

open Sys2Proof.Machine

/-! ### Helpers -/

/-- The reset state with an image of these bytes at address 0. -/
def image (w h : Half) (bytes : List Byte) : State :=
  { State.reset with imgW := w, imgH := h, imem := Memory.writeCells [] (bytes.zipIdx.map fun p => (p.2, p.1)) }

/-- The same state with a kernel set. -/
def withKernel (k : BitVec 4) (d : Half) (ws : List Half) (s : State) : State :=
  { s with ksize := k, kdiv := d, kmem := kmemLoad s.kmem ws }

/-- The same state with a histogram of one count at each listed intensity. -/
def withCounts (ks : List Byte) (s : State) : State := { s with hist := ks.foldl bump (Vector.replicate 256 0) }

/-- The same state with a table. -/
def withTable (g : Nat → Nat) (s : State) : State := { s with lut := Vector.ofFn fun i => BitVec.ofNat 8 (g i.val) }

/-- The state in which the command was accepted. -/
def inFlight (i : Instr) (s : State) : State := { s with engine := .busy (latchOf i s), cmd := encode i }

/-- The state with these host lines to run. -/
def hosted (lines : List HostLine) (s : State) : State := { s with script := lines }

/-- The state a step goes on to. -/
def after (s : State) : State :=
  match step s with
  | .next t => t
  | _ => s

/-- The first bytes of image memory. -/
def bytes (n : Nat) (s : State) : List Byte := (List.range n).map s.imem.read

/-- A host access made by a step. -/
def accessing (offset : Nat) (k : AccessKind) (s : State) : State :=
  after (hosted [.access ⟨0x10000 + offset, 4, k⟩] s)

/-- One access to image memory made by a step. -/
def touching (a width : Nat) (k : AccessKind) (s : State) : State := after (hosted [.access ⟨a, width, k⟩] s)

/-! ### Ill-formed terms are refused (R7, R61, R62, R63, R97) -/

theorem test_wf_rsvd : (fieldsOf 0x00000101).rsvdOk = false := by decide
theorem test_wf_op : (fieldsOf 0x00000007).opOk = false := by decide
theorem test_wf_fmt : (fieldsOf 0x00000010).fmtOk = false := by decide
theorem test_wf_preset_not_loadk : (fieldsOf 0x00000021).presetOk = false := by decide
theorem test_wf_preset_outside_catalog : (fieldsOf 0x000000A6).presetOk = false := by decide
theorem test_wf_legal : (fieldsOf 0x80000000).legal = false := by decide
theorem test_wf_divisor : (KernelTable.mk #v[0, 0, 0, 0, 1, 0, 0, 0, 0] 0).legal = false := by decide
theorem test_wf_imem_aw : ({ Params.vectors with imemAw := 11 } : Params).legal = false := by decide
theorem test_wf_kmax : ({ Params.vectors with kmax := 8 } : Params).legal = false := by decide
theorem test_wf_reg_base : ({ Params.vectors with regBase := 0x20800 } : Params).legal = false := by decide
theorem test_wf_imem_base : ({ Params.vectors with imemBase := 0x20004 } : Params).legal = false := by decide
theorem test_wf_disjoint : ({ Params.vectors with regBase := 0xF000 } : Params).disjoint = false := by decide
theorem test_wf_params : Params.vectors.legal = true := by decide
theorem test_wf_register_width : (HostAccess.mk 0x1000C 1 .read).registerAligned 0x00C = false := by decide
theorem test_wf_register_offset : (HostAccess.mk 0x1000E 4 .read).registerAligned 0x00E = false := by decide
theorem test_wf_imem_width : (HostAccess.mk 0x10 3 .read).imemAligned 0x10 = false := by decide
theorem test_wf_imem_alignment : (HostAccess.mk 0x11 2 .read).imemAligned 0x11 = false := by decide

/-! ### Decoding, each word written out by the fields of R91: RSVD, PRESET, FMT, OP -/

theorem test_decode_nop : decode 0b000000000000000000000000_000_0_0000 = .ok .nop := by decide
theorem test_decode_convG : decode 0b000000000000000000000000_000_0_0001 = .ok .convG := by decide
theorem test_decode_convC : decode 0b000000000000000000000000_000_1_0001 = .ok .convC := by decide
theorem test_decode_histoG : decode 0b000000000000000000000000_000_0_0010 = .ok .histoG := by decide
theorem test_decode_histoC : decode 0b000000000000000000000000_000_1_0010 = .ok .histoC := by decide
theorem test_decode_eqlut : decode 0b000000000000000000000000_000_0_0011 = .ok .eqlut := by decide
theorem test_decode_lutapG : decode 0b000000000000000000000000_000_0_0100 = .ok .lutapG := by decide
theorem test_decode_lutapC : decode 0b000000000000000000000000_000_1_0100 = .ok .lutapC := by decide
theorem test_decode_equalG : decode 0b000000000000000000000000_000_0_0101 = .ok .equalG := by decide
theorem test_decode_equalC : decode 0b000000000000000000000000_000_1_0101 = .ok .equalC := by decide
theorem test_decode_loadkBox : decode 0b000000000000000000000000_000_0_0110 = .ok .loadkBox := by decide
theorem test_decode_loadkGauss : decode 0b000000000000000000000000_001_0_0110 = .ok .loadkGauss := by decide
theorem test_decode_loadkSharpen : decode 0b000000000000000000000000_010_0_0110 = .ok .loadkSharpen := by decide
theorem test_decode_loadkOutline : decode 0b000000000000000000000000_011_0_0110 = .ok .loadkOutline := by decide
theorem test_decode_loadkEmboss : decode 0b000000000000000000000000_100_0_0110 = .ok .loadkEmboss := by decide

/-- The illegal words of L2.3. -/
theorem test_decode_illegal : decode 0x10 = .error .fmtNotAllowed ∧ decode 0x13 = .error .fmtNotAllowed ∧
    decode 0x16 = .error .fmtNotAllowed ∧ decode 0x21 = .error .presetNotAllowed ∧
    decode 0xA6 = .error .presetOutsideCatalog ∧ decode 0xE6 = .error .presetOutsideCatalog ∧
    decode 0x07 = .error .reservedOp ∧ decode 0x1F = .error .reservedOp := by decide

/-- L2.3: a reserved bit set, the lowest and the highest. -/
theorem test_decode_reserved_bit : decode 0x00000101 = .error .rsvdNonZero ∧ decode 0x80000000 = .error .rsvdNonZero := by
  decide

/-- R64: the command's low byte is at the lowest address. -/
theorem test_decode_bytes : decodeBytes [0x86, 0, 0, 0, 0x77] = .ok (.loadkEmboss, [0x77]) := by decide
theorem test_decode_truncated : decodeBytes [0x86, 0, 0] = .error .truncated := by decide
theorem test_decode_table_word : decodeTableWord 32 0x26 = some .loadkGauss := by decide

/-! ### The commands, one completion step each -/

/-- K1. -/
theorem test_nop : (after (inFlight .nop State.reset)).statusWord = 0x002 := by decide +kernel

/-- C2. -/
theorem test_convG_box : bytes 9 (after (inFlight .convG
    (withKernel 3 9 (List.replicate 9 1) (image 3 3 [10, 20, 30, 40, 0, 60, 70, 80, 90])))) =
    [10, 20, 30, 40, 44, 60, 70, 80, 90] := by decide +kernel

/-- C14: the kernel is not flipped. -/
theorem test_convG_orientation : bytes 16 (after (inFlight .convG
    (withKernel 3 1 [1, 0, 0, 0, 0, 0, 0, 0, 0] (image 4 4 [1, 2, 3, 4, 5, 6, 7, 8, 9, 10, 11, 12, 13, 14, 15, 16])))) =
    [1, 2, 3, 4, 5, 1, 2, 8, 9, 5, 6, 12, 13, 14, 15, 16] := by decide +kernel

/-- C20: the channels clamp independently. -/
theorem test_convC_sharpen : bytes 27 (after (inFlight .convC (withKernel 3 1 [0, -1, 0, -1, 5, -1, 0, -1, 0]
    (image 3 3 (List.replicate 12 40 ++ [50, 200, 10] ++ List.replicate 12 40))))) =
    List.replicate 12 40 ++ [90, 255, 0] ++ List.replicate 12 40 := by decide +kernel

/-- H1. -/
theorem test_histoG : (([0, 50, 100, 200, 255] : List (Fin 256)).map fun v =>
    (after (inFlight .histoG (image 2 2 [50, 100, 100, 200]))).hist[v]) = [0, 1, 2, 1, 0] := by decide +kernel

/-- H9. -/
theorem test_histoC : (([29, 76, 150, 255, 0] : List (Fin 256)).map fun v =>
    (after (inFlight .histoC (image 2 2 [0, 0, 255, 0, 255, 0, 255, 0, 0, 255, 255, 255]))).hist[v]) =
    [1, 1, 1, 1, 0] := by decide +kernel

/-- H11: an exact half luma rounds up. -/
theorem test_histoC_half : (after (inFlight .histoC (image 1 1 [0, 1, 187]))).hist[57] = 1 := by decide +kernel

/-- H2. -/
theorem test_eqlut : (after (inFlight .eqlut (withCounts [50, 100, 100, 200] State.reset))).lut[100] = 170 := by
  decide +kernel

/-- H16. -/
theorem test_lutapG : bytes 5 (after (inFlight .lutapG (withTable (255 - ·) (image 4 1 [0, 1, 254, 255, 9])))) =
    [255, 254, 1, 0, 9] := by decide +kernel

/-- H12. -/
theorem test_lutapC_lossy : bytes 3 (after (inFlight .lutapC (withTable (·) (image 1 1 [231, 252, 255])))) =
    [232, 252, 255] := by decide +kernel

/-- H10, with its table. -/
theorem test_lutapC : bytes 12 (after (inFlight .lutapC
    (withTable (fun i => if i < 76 then 0 else if i < 150 then 85 else if i < 255 then 170 else 255)
      (image 2 2 [0, 0, 255, 0, 255, 0, 255, 0, 0, 255, 255, 255])))) =
    [9, 9, 255, 20, 255, 20, 226, 0, 0, 255, 255, 255] := by decide +kernel

/-- H6. -/
theorem test_equalG : bytes 3 (after (inFlight .equalG (image 3 2 [3, 1, 2, 1, 3, 3]))) = [255, 0, 64] := by
  decide +kernel

/-- H13: a degenerate color image still goes through the projection. -/
theorem test_equalC_degenerate :
    (after (inFlight .equalC (image 2 1 [231, 252, 255, 231, 252, 255]))).imem.read 0 = 232 := by decide +kernel

/-- E6. -/
theorem test_loadkBox : (after (inFlight .loadkBox State.reset)).kmem.take 9 = List.replicate 9 1 ∧
    (after (inFlight .loadkBox State.reset)).kdiv = 9 := by decide +kernel

/-- C21. -/
theorem test_loadkGauss : (after (inFlight .loadkGauss State.reset)).kmem.take 10 = [1, 2, 1, 2, 4, 2, 1, 2, 1, 0] ∧
    (after (inFlight .loadkGauss State.reset)).ksize = 3 := by decide +kernel

/-- R131, the default table. -/
theorem test_loadkSharpen : (after (inFlight .loadkSharpen State.reset)).kmem.take 9 =
    [0, -1, 0, -1, 5, -1, 0, -1, 0] := by decide +kernel

/-- R131, the default table. -/
theorem test_loadkOutline : (after (inFlight .loadkOutline State.reset)).kmem.take 9 =
    [-1, -1, -1, -1, 8, -1, -1, -1, -1] := by decide +kernel

/-- C22: the weight reads back sign-extended. -/
theorem test_loadkEmboss :
    (accessing 0xC00 .read (after (inFlight .loadkEmboss State.reset))).response = .data 0xFFFFFFFE := by decide +kernel

/-! ### Issue, rejection, hazards and reset -/

/-- X5: KSIZE before KDIV before BOUNDS. -/
theorem test_priority : (accessing 0x014 (.write 0x01) { image 3 3 [] with imgBase := 0xFFF8, ksize := 4 }).statusWord =
    0x204 := by decide +kernel

/-- X4. -/
theorem test_kdiv_error : (accessing 0x014 (.write 0x01) { image 3 3 [] with ksize := 3 }).statusWord = 0x304 := by
  decide +kernel

/-- X6 and X7: one byte too far, and the last that fits. -/
theorem test_bounds : (accessing 0x014 (.write 0x02) { image 3 3 [] with imgBase := 0xFFF8 }).statusWord = 0x404 ∧
    (accessing 0x014 (.write 0x02) { image 3 3 [] with imgBase := 0xFFF7 }).statusWord = 0x001 := by decide +kernel

/-- X10: no pixels are never out of bounds. -/
theorem test_bounds_empty : (accessing 0x014 (.write 0x05) { image 0 100 [] with imgBase := 0xFFFF }).busy = true := by
  decide +kernel

/-- X13. -/
theorem test_illegal : (accessing 0x014 (.write 0x07) State.reset).statusWord = 0x104 ∧
    (accessing 0x014 (.write 0x07) State.reset).cmd = 0x07 := by decide +kernel

/-- K4: the codes cannot be written, and ERRCODE goes with ERR. -/
theorem test_status_clear : (accessing 0x00C (.write 0xFFFFFFFF)
    { State.reset with status := ⟨true, true, true, true, .illegalCmd⟩ }).statusWord = 0 := by decide +kernel

/-- K5, outcome (a): dropped, and CMD keeps its value. -/
theorem test_dropped : (accessing 0x014 (.write 0x00) { inFlight .convG State.reset with turns := [.host] }).statusWord =
    0x009 := by decide +kernel

/-- K6, outcome (a): refused. -/
theorem test_refused : (touching 0 4 .read { inFlight .convG State.reset with turns := [.host] }).statusWord = 0x011 := by
  decide +kernel

/-- K9: an idle soft reset keeps the table and clears the operands. -/
theorem test_soft_reset : (accessing 0x008 (.write 1) { withTable (·) State.reset with ksize := 3 }).lut[3] = 3 ∧
    (accessing 0x008 (.write 1) { withTable (·) State.reset with ksize := 3 }).ksize = 0 := by decide +kernel

/-- K2: an enabled completion raises IRQ. -/
theorem test_irq : (after (inFlight .nop { State.reset with ier := Ier.ofWord 0x2 })).irq = true := by decide +kernel

/-! ### The two ranges -/

/-- M1. -/
theorem test_imem_little_endian : (touching 0x12 2 .read (touching 0x10 4 (.write 0x11223344) State.reset)).response =
    .data 0x1122 := by decide +kernel

/-- M2. -/
theorem test_imem_misaligned : step (hosted [.access ⟨0x11, 2, .read⟩] State.reset) =
    .fault (.imemBusError ⟨0x11, 2, .read⟩) := by rfl

/-- M4. -/
theorem test_register_byte_read : step (hosted [.access ⟨0x1000C, 1, .read⟩] State.reset) =
    .fault (.registerBusError ⟨0x1000C, 1, .read⟩) := by rfl

/-- M5. -/
theorem test_lut_window : (accessing 0x804 .read (accessing 0x804 (.write 0xDDCCBBAA) State.reset)).response =
    .data 0xDDCCBBAA ∧ (accessing 0x804 (.write 0xDDCCBBAA) State.reset).lut[5] = 0xBB := by decide +kernel

/-- M6. -/
theorem test_kmem_window : (accessing 0xC08 .read (accessing 0xC08 (.write 0x0001FFFE) State.reset)).response =
    .data 0xFFFFFFFE := by decide +kernel

/-- M8. -/
theorem test_reserved : ∀ offset ∈ [0x038, 0x900, 0xCC4],
    (accessing offset .read State.reset).response = .data 0 := by decide +kernel

/-- M11. -/
theorem test_img_base_width : (accessing 0x018 (.write 0x00012345) State.reset).imgBase = 0x2345 := by decide +kernel

/-- K12 and K13. -/
theorem test_id_caps : (accessing 0x000 .read State.reset).response = .data 0x43480100 ∧
    (accessing 0x004 .read State.reset).response = .data 0x00001007 := by decide +kernel

/-- The memory of the reset state is in canonical form. -/
theorem reset_memory_wf : State.reset.imem.wf = true := by decide

/-! ### Witnesses: the hypotheses of each statement are met together, each clause at a boundary -/

/-- A host line that writes CMD of the test parameters. -/
abbrev cmdLineOf (w : Word) : HostLine := .access ⟨0x10000 + 0x014, 4, .write w⟩

theorem witness_StepRunsTheIssuedCommand : ∃ (s : State) (w : Word) (rest : List HostLine) (i : Instr),
    s.engine = .idle ∧ s.script = .access ⟨s.params.regBase + 0x014, 4, .write w⟩ :: rest ∧ decode w = .ok i :=
  ⟨hosted [cmdLineOf 0x86, .wait] State.reset, 0x86, [.wait], .loadkEmboss, rfl, rfl, by decide⟩

theorem witness_StepRunsTheCommandInFlight :
    (∃ (s : State) (l : Latch), s.engine = .busy l ∧ s.script = []) ∧
    ∃ (s : State) (l : Latch), s.engine = .busy l ∧ s.script ≠ [] ∧ s.turns.headD .engine = .engine :=
  ⟨⟨inFlight .nop State.reset, _, rfl, rfl⟩,
    ⟨hosted [.wait] (inFlight .nop { State.reset with turns := [.engine, .host] }), _, rfl, by simp [hosted], rfl⟩⟩

theorem witness_StepRunsThePlacedWord : decodeTableWord 32 0x15 = some .equalC ∧ decodeTableWord 32 0 = some .nop := by
  decide

theorem witness_IllegalWordIsRejected : State.reset.engine = .idle ∧ decode 0x07 = .error .reservedOp := ⟨rfl, by decide⟩

theorem witness_CmdWriteWhileBusyIsDropped : ∃ l, (inFlight .convG State.reset).engine = .busy l := ⟨_, rfl⟩

theorem witness_CmdWriteHasOneOutcome : State.reset.engine = .idle ∧ (inFlight .convG State.reset).engine ≠ .idle :=
  ⟨rfl, by simp [inFlight]⟩

/-- The branches of R237: an even side, a side above KMAX, a zero divisor at the largest legal side, one byte too far in
gray and in color, and an image that just fits. -/
theorem witness_ChecksAreMadeInFixedOrder :
    (image 3 3 []).engine = .idle ∧
    (check .convG { image 3 3 [] with ksize := 6, kdiv := 0 } = .ksizeErr) ∧
    (check .convC { image 3 3 [] with ksize := 9, kdiv := 1 } = .ksizeErr) ∧
    (check .convG { image 3 3 [] with ksize := 7, kdiv := 0, imgBase := 0xFFF8 } = .kdivErr) ∧
    (check .equalG { image 3 3 [] with imgBase := 0xFFF8 } = .boundsErr) ∧
    (check .equalG { image 3 3 [] with imgBase := 0xFFF7 } = .none) ∧
    (check .lutapC { image 2 2 [] with imgBase := 0xFFF5 } = .boundsErr) ∧
    (check .lutapC { image 2 2 [] with imgBase := 0xFFF4 } = .none) := by decide +kernel

theorem witness_RejectionChangesOnlyErr : ∃ s t : State, s.engine = .idle ∧
    hostAccess s ⟨s.params.regBase + 0x014, 4, .write 1⟩ = .next t ∧ t.engine = .idle ∧ s.ier.errIe = true :=
  ⟨{ State.reset with ier := Ier.ofWord 4 }, _, rfl, rfl, rfl, rfl⟩

theorem witness_CommandsWithoutImageAreAccepted : Instr.loadkEmboss ∈ [Instr.nop, .eqlut, .loadkBox, .loadkGauss,
    .loadkSharpen, .loadkOutline, .loadkEmboss] ∧ (image 65535 65535 []).engine = .idle := ⟨by decide, rfl⟩

/-- The invariant holds of an idle state with an image of no pixels at the top of memory, and of a busy one. -/
theorem idle_inv : State.Inv { image 0 5 [] with imgBase := 0xFFFF } where
  params := by decide
  base := by decide
  kmemSize := by decide
  memForm := by decide
  memRange := by intro c hc; simp [image, Memory.writeCells] at hc
  errcode := by decide
  histBound := by decide +kernel
  inFlight := by intro l h; cases h

theorem busy_inv : State.Inv (inFlight .convG (withKernel 3 9 (List.replicate 9 1) (image 3 3 []))) where
  params := by decide
  base := by decide
  kmemSize := by decide
  memForm := by decide
  memRange := by intro c hc; simp [inFlight, withKernel, image, Memory.writeCells] at hc
  errcode := by decide
  histBound := by decide +kernel
  inFlight := by
    intro l h
    cases h
    refine ⟨⟨by decide, fun _ => by decide, fun f hf => ?_⟩, rfl, rfl, rfl⟩
    cases hf
    decide

theorem witness_EmptyImageIsNeverOutOfBounds : ∃ s : State, s.Inv ∧ s.engine = .idle ∧ s.imgW.toNat * s.imgH.toNat = 0 :=
  ⟨_, idle_inv, rfl, rfl⟩

theorem witness_CommandInFlightCompletes : ∃ l, (inFlight .equalC (image 2 1 [])).engine = .busy l := ⟨_, rfl⟩

/-- An image and a kernel that just pass every check. -/
theorem witness_IssuedCommandRunsToCompletion : ∃ s : State, s.engine = .idle ∧
    (s.ksize.toNat % 2 = 1 ∧ s.ksize.toNat ≤ s.params.kmax ∧ s.kdiv ≠ 0) ∧
    s.imgBase.toNat + s.imgW.toNat * s.imgH.toNat ≤ 2 ^ s.params.imemAw ∧
    s.imgBase.toNat + s.imgW.toNat * s.imgH.toNat * 3 ≤ 2 ^ s.params.imemAw :=
  ⟨withKernel 7 1 [] { image 2 2 [] with imgBase := 0xFFF4 }, by decide⟩

theorem witness_LatchedOperandsShieldTheCommand : ∃ (s t t' : State) (l : Latch), s.engine = .busy l ∧
    exec .histoG s = .next t ∧ exec .histoG { s with imgBase := 5, imgW := 7, imgH := 7, ksize := 2, kdiv := 0 } = .next t' :=
  ⟨inFlight .histoG (image 2 2 [1]), _, _, _, rfl, rfl, rfl⟩

theorem witness_NopChangesOnlyBusyAndDone : ∃ l, (inFlight .nop State.reset).engine = .busy l := ⟨_, rfl⟩

/-- The smallest divisor. -/
theorem witness_RoundingIsNearestHalfUp : (1 : Int) ≤ 1 := by decide

/-- An image of 4 by 4 under a side of 3: the first and the last interior pixel, the border beside each, and an address
outside. -/
theorem witness_ConvolutionWritesTheInterior : ∃ (s : State) (l : Latch), s.engine = .busy l ∧ s.imem.wf = true ∧
    l.snapshot = s.imem ∧ l.ksize.toNat % 2 = 1 ∧ (l.half ≤ 1 ∧ 1 + l.half < l.imgW.toNat) ∧
    (l.half ≤ 2 ∧ 2 + l.half < l.imgH.toNat) ∧ ¬ l.half ≤ 0 ∧ ¬ 3 + l.half < l.imgW.toNat ∧ 16 ∉ (l.pixels.map fun p =>
      l.pix .gray p.1 p.2 0) :=
  ⟨inFlight .convG (withKernel 3 9 [1] (image 4 4 [7])), _, rfl, by decide, rfl, by decide⟩

/-- The widest image without an interior pixel. -/
theorem witness_ConvolutionWithoutInteriorChangesNothing : ∃ (s : State) (l : Latch), s.engine = .busy l ∧
    l.imgW.toNat = 2 * l.half :=
  ⟨inFlight .convG (withKernel 3 9 [1] (image 2 9 [7])), _, rfl, by decide⟩

/-- Two snapshots that differ in blue and agree on red. -/
theorem witness_ConvolutionChannelsAreIndependent : ∃ (s t t' : State) (l : Latch) (m : Memory), s.engine = .busy l ∧
    s.imem.wf = true ∧ l.ksize.toNat % 2 = 1 ∧
    (∀ x y, x < l.imgW.toNat → y < l.imgH.toNat → m.read (l.pix .color x y 2) = l.snapshot.read (l.pix .color x y 2)) ∧
    exec .convC s = .next t ∧ exec .convC { s with engine := .busy { l with snapshot := m } } = .next t' ∧
    m ≠ l.snapshot :=
  ⟨inFlight .convC (withKernel 1 1 [2] (image 1 1 [7, 7, 7])), _, _, _, [(0, 9), (1, 7), (2, 7)], rfl, by decide, rfl,
    by
      intro x y hx hy
      have hx' : x < 1 := hx
      have hy' : y < 1 := hy
      obtain rfl : x = 0 := by omega
      obtain rfl : y = 0 := by omega
      rfl,
    rfl, rfl, by decide⟩

theorem witness_LoadkWritesTheCatalogKernel : ∃ (s : State) (l : Latch), s.engine = .busy l ∧ 9 ≤ s.kmem.length :=
  ⟨inFlight .loadkBox State.reset, _, rfl, by decide⟩

theorem witness_HistogramCountsKeys : ∃ l, (inFlight .histoC (image 1 1 [0, 1, 187])).engine = .busy l := ⟨_, rfl⟩

theorem witness_HistogramTotalIsThePixelCount : ∃ (s t : State) (l : Latch), s.engine = .busy l ∧
    exec .equalC s = .next t := ⟨inFlight .equalC (image 2 1 [7]), _, _, rfl, rfl⟩

theorem lastBin_total : cdf ((Vector.replicate 256 0).set 255 1) 255 = 1 := by decide +kernel

/-- An empty histogram, and one whose lowest occupied bin is the last. -/
theorem witness_EqlutBuildsTheRemapTable :
    (∃ (s : State) (l : Latch), s.engine = .busy l ∧ ∑ j : Fin 256, (s.hist[j]).toNat < 2 ^ 32 ∧
      ∀ j : Fin 256, s.hist[j] = 0) ∧
    ∃ (s : State) (l : Latch) (m : Fin 256), s.engine = .busy l ∧ ∑ j : Fin 256, (s.hist[j]).toNat < 2 ^ 32 ∧
      s.hist[m] ≠ 0 ∧ (∀ j < m, s.hist[j] = 0) ∧
      1 = ∑ j ∈ Finset.univ.filter (fun j : Fin 256 => j ≤ m), (s.hist[j]).toNat :=
  ⟨⟨inFlight .eqlut State.reset, _, rfl, by simp [inFlight, State.reset, State.powerOn],
      fun j => by simp [inFlight, State.reset, State.powerOn]⟩,
    ⟨inFlight .eqlut { State.reset with hist := (Vector.replicate 256 0).set 255 1 }, _, 255, rfl,
      by rw [← histTotal_eq_sum]; exact lastBin_total.trans_lt (by decide), by simp [inFlight],
      fun j hj => by
        have : j.val < 255 := hj
        simp [inFlight, show (255 : Nat) ≠ j.val by omega],
      by rw [← cdf_eq_sum_filter]; exact lastBin_total.symm⟩⟩

/-- A table that is not the identity, with the lowest and the highest occupied bin. -/
theorem witness_RemapTableRisesFromZeroTo255 : ∃ (s t : State) (l : Latch), s.engine = .busy l ∧
    exec .eqlut s = .next t ∧ t.degen = false ∧ (∀ j < (0 : Fin 256), s.hist[j] = 0) ∧
    (∀ j > (255 : Fin 256), s.hist[j] = 0) :=
  ⟨inFlight .eqlut (withCounts [0, 255] State.reset), _, _, rfl, rfl, by decide +kernel,
    fun j h => absurd h (by simp), fun j h => absurd h (by omega)⟩

theorem witness_RampGivesTheIdentityTable : ∃ (s : State) (l : Latch), s.engine = .busy l ∧
    ∀ j : Fin 256, s.hist[j] = 1 :=
  ⟨inFlight .eqlut { State.reset with hist := Vector.replicate 256 1 }, _, rfl, fun j => by simp [inFlight]⟩

/-- The last pixel, and the address after it. -/
theorem witness_LutapGrayMapsEverySample : ∃ (s : State) (l : Latch), s.engine = .busy l ∧ s.imem.wf = true ∧
    3 < l.imgW.toNat ∧ 0 < l.imgH.toNat ∧ ∀ x y, x < l.imgW.toNat → y < l.imgH.toNat → 4 ≠ l.pix .gray x y 0 :=
  ⟨inFlight .lutapG (image 4 1 [0, 1, 254, 255]), _, rfl, by decide, by decide, by decide, by
    intro x y hx hy h
    have hy' : y < 1 := hy
    obtain rfl : y = 0 := by omega
    have hx' : x < 4 := hx
    simp [Latch.pix, latchOf, image, State.reset, State.powerOn, bpp] at h
    omega⟩

theorem witness_LutapColorProjectsEveryPixel : ∃ (s : State) (l : Latch), s.engine = .busy l ∧ s.imem.wf = true ∧
    0 < l.imgW.toNat ∧ 0 < l.imgH.toNat ∧ ((l.p0 .color 0 0 2).toNat : Int) = 255 :=
  ⟨inFlight .lutapC (image 1 1 [231, 252, 255]), _, rfl, by decide, by decide, by decide, by decide⟩

/-- An image whose last byte is the last of image memory. -/
theorem witness_EqualIsHistogramTableApply : ∃ s : State, s.engine = .idle ∧
    s.imgBase.toNat + s.imgW.toNat * s.imgH.toNat * 3 = 2 ^ s.params.imemAw :=
  ⟨{ image 2 2 [] with imgBase := 0xFFF4 }, rfl, by decide⟩

theorem witness_EqualUsesOneSnapshot : ∃ l, (inFlight .equalG (image 2 2 [10, 10, 10, 10])).engine = .busy l := ⟨_, rfl⟩

theorem witness_GrayPixelIsFixedByTheProjection : ∃ lut : Vector Byte 256, ∀ i : Fin 256, (lut[i]).toNat = i.val :=
  ⟨Vector.ofFn fun i => BitVec.ofNat 8 i.val, fun i => by simp⟩

theorem witness_DegenerateGrayValuedImageIsUnchanged : ∃ (s t : State) (l : Latch), s.engine = .busy l ∧
    s.imem.wf = true ∧ l.snapshot = s.imem ∧ (∀ x y, x < l.imgW.toNat → y < l.imgH.toNat →
      l.p0 .color x y 0 = l.p0 .color x y 1 ∧ l.p0 .color x y 1 = l.p0 .color x y 2) ∧
    exec .equalC s = .next t ∧ t.degen = true :=
  ⟨inFlight .equalC (image 1 1 [7, 7, 7]), _, _, rfl, by decide, rfl, by
      intro x y hx hy
      have hx' : x < 1 := hx
      have hy' : y < 1 := hy
      obtain rfl : x = 0 := by omega
      obtain rfl : y = 0 := by omega
      decide, rfl, by decide +kernel⟩

/-- The byte below the region, the byte after it, and a command without a region. -/
theorem witness_EngineWritesOnlyItsRegion :
    (∃ (s t : State) (l : Latch), s.engine = .busy l ∧ exec .convC s = .next t ∧ imageFormat .convC = some .color ∧
      4 < l.imgBase.toNat ∧ l.imgBase.toNat + l.imgW.toNat * l.imgH.toNat * bpp .color ≤ 17) ∧
    ∃ (s t : State) (l : Latch), s.engine = .busy l ∧ exec .eqlut s = .next t ∧ imageFormat .eqlut = none :=
  ⟨⟨inFlight .convC { image 2 2 [] with imgBase := 5 }, _, _, rfl, rfl, rfl, by decide, by decide⟩,
    ⟨inFlight .eqlut State.reset, _, _, rfl, rfl, rfl⟩⟩

/-- Two snapshots that differ outside the region. -/
theorem witness_EngineReadsOnlyItsRegion : ∃ (s : State) (l : Latch) (m : Memory), s.engine = .busy l ∧
    l.ksize.toNat % 2 = 1 ∧ (∀ a, l.imgBase.toNat ≤ a → a < l.imgBase.toNat + l.imgW.toNat * l.imgH.toNat * bpp .gray →
      m.read a = l.snapshot.read a) ∧ m.read 1 ≠ l.snapshot.read 1 :=
  ⟨inFlight .convG (withKernel 1 1 [2] (image 1 1 [7])), _, [(0, 7), (1, 7)], rfl, by decide, by
      intro a _ ha
      have : a < 1 := by
        simp [latchOf, withKernel, image, State.reset, State.powerOn, bpp] at ha
        omega
      obtain rfl : a = 0 := by omega
      rfl, by decide⟩

/-- The first and the last offset of each reserved stretch. -/
theorem witness_ReservedOffsetsReadZero : ∀ offset ∈ [0x038, 0x3FC, 0x900, 0xBFC, 0xCC4, 0xFFC], offset % 4 = 0 ∧
    ((0x038 ≤ offset ∧ offset < 0x400) ∨ (0x900 ≤ offset ∧ offset < 0xC00) ∨
      (0xC00 + 4 * (State.reset.params.kmax * State.reset.params.kmax) ≤ offset ∧ offset < 0x1000)) := by decide

theorem witness_WindowsReachTheArrays : ∃ s : State, s.engine = .idle ∧ s.params.kmax ≤ 15 ∧
    s.kmem.length = s.params.kmax * s.params.kmax ∧ 48 < s.params.kmax * s.params.kmax :=
  ⟨State.reset, rfl, by decide⟩

/-- The last access of each range, of the right width and of a wrong one. -/
theorem witness_BusErrorsAreWidthAndAlignment : State.reset.params.legal = true ∧
    (0xFFC < 0x1000 ∧ 0xFFC % 4 = 0) ∧ (0xFFF < 0x1000 ∧ ¬ 0xFFF % 4 = 0) ∧
    (0xFFFE < 2 ^ State.reset.params.imemAw ∧ 0xFFFE % 2 = 0) ∧
    (0xFFFF < 2 ^ State.reset.params.imemAw ∧ ¬ 0xFFFF % 2 = 0) := by decide

/-- A read that goes on, and one that the busy engine refuses. -/
theorem witness_HostReadsHaveNoSideEffect :
    (∃ t, hostAccess State.reset ⟨0x10000, 4, .read⟩ = .next t) ∧
    ∃ t, hostAccess (inFlight .nop State.reset) ⟨0, 1, .read⟩ = .next t ∧
      (inFlight .nop State.reset).engine ≠ .idle :=
  ⟨⟨_, rfl⟩, ⟨_, rfl, by simp [inFlight]⟩⟩

/-- The first and the last entry of the windows, and the last word of image memory. -/
theorem witness_BusyEngineRefusesArrayAccess : ∃ (s : State) (l : Latch), s.params.legal = true ∧ s.engine = .busy l ∧
    (∀ offset ∈ [0x400, 0x8FC, 0xC00, 0xCC0], offset % 4 = 0 ∧ ((0x400 ≤ offset ∧ offset < 0x900) ∨
      (0xC00 ≤ offset ∧ offset < 0xC00 + 4 * (s.params.kmax * s.params.kmax)))) ∧
    0xFFFC < 2 ^ s.params.imemAw ∧ 0xFFFC % 4 = 0 :=
  ⟨inFlight .nop State.reset, _, by decide, rfl, by decide⟩

/-- The last word, halfword and byte. -/
theorem witness_ImemAccessIsLittleEndian : State.reset.params.legal = true ∧ State.reset.engine = .idle ∧
    State.reset.imem.wf = true ∧ ∀ p ∈ [(4, 0xFFFC), (2, 0xFFFE), (1, 0xFFFF)], p.2 % p.1 = 0 ∧
      p.2 < 2 ^ State.reset.params.imemAw := by decide

theorem witness_HostCannotDisturbTheCommandInFlight : ∃ (s t : State) (l : Latch) (line : HostLine)
    (rest : List HostLine), s.engine = .busy l ∧ s.script = line :: rest ∧ harmlessLine s.params line = true ∧
    mover s = some .host ∧ step s = .next t :=
  ⟨hosted [cmdLineOf 0] (inFlight .convG { State.reset with turns := [.host] }), _, _, _, _, rfl, rfl, by decide, rfl, rfl⟩

theorem witness_SoftResetClearsTheRegisters : (1 : Word).getLsbD 0 = true ∧ (0xFFFFFFFE : Word).getLsbD 0 = false ∧
    State.reset.engine = .idle := by decide

/-- An aborted convolution with a border byte, an aborted table and an aborted LOADK. -/
theorem witness_AbortTouchesOnlyTheCommandsTargets : ∃ (s : State) (l : Latch), s.engine = .busy l ∧
    (1 : Word).getLsbD 0 = true ∧ l.instr ∉ [Instr.eqlut, .equalG, .equalC] ∧ 0 ∉ abortedAddresses l ∧
    5 ∈ abortedAddresses l :=
  ⟨inFlight .convG (withKernel 3 9 [1] (image 4 4 [7])), _, rfl, by decide, by decide, by decide, by decide⟩

theorem witness_EnabledCompletionRaisesIrq : ∃ (s : State) (l : Latch), s.engine = .busy l ∧ s.ier.doneIe = true :=
  ⟨inFlight .nop { State.reset with ier := Ier.ofWord 2 }, _, rfl, rfl⟩

theorem witness_WaitGoesOnWhenIdle :
    (∃ (s : State) (rest : List HostLine), s.script = .wait :: rest ∧ mover s = some .host ∧ s.engine = .idle) ∧
    ∃ (s : State) (rest : List HostLine), s.script = .wait :: rest ∧ mover s = some .host ∧ s.engine ≠ .idle :=
  ⟨⟨hosted [.wait] State.reset, [], rfl, rfl, rfl⟩,
    ⟨hosted [.wait] (inFlight .nop { State.reset with turns := [.host] }), [], rfl, rfl, by simp [hosted, inFlight]⟩⟩

theorem witness_PowerOnMeetsTheInvariant : ∃ (p : Params) (kmem : List Half) (imem : Memory), p.legal = true ∧
    kmem.length = p.kmax * p.kmax ∧ imem.wf = true ∧ imem.below p.imemSize ∧ imem ≠ [] :=
  ⟨Params.vectors, List.replicate 49 7, [(0xFFFF, 5)], by decide, by decide, by decide,
    by intro c hc; simp at hc; subst hc; decide, by decide⟩

theorem witness_EveryStepKeepsTheInvariant : ∃ s t : State, s.Inv ∧ step s = .next t := ⟨_, _, busy_inv, rfl⟩

theorem witness_OnlyHostAccessesStop : ∃ (s : State) (a : HostAccess), s.script = [.access a] ∧ mover s = some .host ∧
    ∃ t, hostAccess s a = .next t := ⟨hosted [.access ⟨0x10000, 4, .read⟩] State.reset, _, rfl, rfl, _, rfl⟩

theorem witness_CommandInFlightCompletesInFiniteTime : ∃ (s : State) (l : Latch), s.engine = .busy l ∧
    s.turns = [.host, .host] ∧ ∀ line ∈ s.script, harmlessLine s.params line = true :=
  ⟨hosted [cmdLineOf 0, .wait] (inFlight .nop { State.reset with turns := [.host, .host] }), _, rfl, rfl, by decide⟩

end Sys2Proof.Tests
end

section
/-! Settled: the rounding and clamping primitives of the scope chapter (R10, R11). -/

namespace Sys2Proof.Machine

/-- The quotient of `rnd` is a floor division, as R9 asks: its divisor is not negative. -/
theorem rnd_eq_fdiv (s : Int) {d : Int} (hd : 0 < d) : rnd s d = Int.fdiv (2 * s + d) (2 * d) :=
  (Int.fdiv_eq_ediv_of_nonneg _ (by omega)).symm

/-- Settles O20: the formula is `rnd_eq_fdiv`, the bounds are `rnd_bounds`, and the five examples of R10 evaluate. -/
theorem roundingIsNearestHalfUp : Obligations.RoundingIsNearestHalfUp := by
  have hexamples : rnd 8 16 = 1 ∧ rnd 40 16 = 3 ∧ rnd (-8) 16 = 0 ∧ rnd (-24) 16 = -1 ∧ rnd 450 9 = 50 := by decide
  refine ⟨fun s d hd => ?_, hexamples⟩
  have hpos : 0 < d := by omega
  exact ⟨rnd_eq_fdiv s hpos, rnd_bounds s hpos⟩

/-- Settles O21: the stored byte holds the clamped value (`clampRound_toNat`), and `clamp8` is the clamp of R11. -/
theorem clampRoundRoundsThenClamps : Obligations.ClampRoundRoundsThenClamps :=
  fun s d => clampRound_toNat s d

end Sys2Proof.Machine
end

section
/-! SUPPORT. The register window as the host reaches it: which accesses are answered, and the fields of the words they
carry (R22 to R45). -/

namespace Sys2Proof.Machine

/-! ### Answered accesses -/

/-- The offset of `r` is a word of the window that selects `r` (R22). -/
structure MappedAt (kmax : Nat) (r : Reg) : Prop where
  inWindow : regOffset r < 0x1000
  aligned : regOffset r % 4 = 0
  selects : regAt kmax (regOffset r) = r

/-- The engine does not own `r` now: an access to it is not refused (R281). -/
def Answered (s : State) (r : Reg) : Prop := isArray r = true → s.engine = .idle

theorem Answered.not_refused {s : State} {r : Reg} (h : Answered s r) : ¬ (s.busy && isArray r) = true := by
  rw [Bool.and_eq_true]
  rintro ⟨hbusy, harray⟩
  simp [busy_of_idle (h harray)] at hbusy

theorem accessReg_read {s : State} {r : Reg} (h : Answered s r) :
    accessReg s r .read = .next { s with response := .data (readReg s r) } := by
  rw [accessReg, if_neg h.not_refused]

theorem accessReg_write {s : State} {r : Reg} (h : Answered s r) (v : Word) :
    accessReg s r (.write v) = writeReg { s with response := .written } v r := by
  rw [accessReg, if_neg h.not_refused]

theorem hostAccess_read {s : State} {r : Reg} (hr : MappedAt s.params.kmax r) (h : Answered s r) :
    hostAccess s ⟨s.params.regBase + regOffset r, 4, .read⟩ = .next { s with response := .data (readReg s r) } := by
  rw [hostAccess_reg s hr.inWindow hr.aligned, hr.selects, accessReg_read h]

theorem hostAccess_write {s : State} {r : Reg} (hr : MappedAt s.params.kmax r) (h : Answered s r) (v : Word) :
    hostAccess s ⟨s.params.regBase + regOffset r, 4, .write v⟩ = writeReg { s with response := .written } v r := by
  rw [hostAccess_reg s hr.inWindow hr.aligned, hr.selects, accessReg_write h]

theorem mappedAt_hist (kmax : Nat) (i : Fin 256) : MappedAt kmax (.hist i) where
  inWindow := by simp only [regOffset]; omega
  aligned := by simp only [regOffset]; omega
  selects := regAt_hist kmax i

theorem mappedAt_lutw (kmax : Nat) (j : Fin 64) : MappedAt kmax (.lutw j) where
  inWindow := by simp only [regOffset]; omega
  aligned := by simp only [regOffset]; omega
  selects := regAt_lutw kmax j

/-- KMAX is at most 15 (R7), so the KMEM window ends inside the register window. -/
theorem mappedAt_kmem {kmax i : Nat} (hk : kmax ≤ 15) (hi : i < kmax * kmax) : MappedAt kmax (.kmem i) where
  inWindow := by
    have : kmax * kmax ≤ 15 * 15 := Nat.mul_le_mul hk hk
    simp only [regOffset]
    omega
  aligned := by simp only [regOffset]; omega
  selects := regAt_kmem hi

/-- The registers of R22 below the windows, each at an offset of its own. -/
def isPlainReg : Reg → Bool
  | .hist _ => false
  | .lutw _ => false
  | .kmem _ => false
  | .reserved _ => false
  | _ => true

theorem mappedAt_plain (kmax : Nat) {r : Reg} (h : isPlainReg r = true) : MappedAt kmax r := by
  cases r with
  | hist | lutw | kmem | reserved => simp [isPlainReg] at h
  | _ => exact ⟨by decide, rfl, rfl⟩

/-- The engine owns the windows only (R281). -/
theorem answered_plain (s : State) {r : Reg} (h : isPlainReg r = true) : Answered s r := by
  cases r with
  | hist | lutw | kmem => simp [isPlainReg] at h
  | _ => simp [Answered, isArray]

theorem hostAccess_read_plain (s : State) {r : Reg} (h : isPlainReg r = true) :
    hostAccess s ⟨s.params.regBase + regOffset r, 4, .read⟩ = .next { s with response := .data (readReg s r) } :=
  hostAccess_read (mappedAt_plain _ h) (answered_plain s h)

theorem hostAccess_write_plain (s : State) {r : Reg} (h : isPlainReg r = true) (v : Word) :
    hostAccess s ⟨s.params.regBase + regOffset r, 4, .write v⟩ = writeReg { s with response := .written } v r :=
  hostAccess_write (mappedAt_plain _ h) (answered_plain s h) v

/-- A write of a register that leaves `t`, and the read that follows it. -/
theorem hostAccess_write_then_read {s t : State} {r : Reg} {v w : Word} (h : isPlainReg r = true)
    (hparams : t.params = s.params)
    (hwrite : writeReg { s with response := .written } v r = .next { t with response := .written })
    (hread : readReg { t with response := .written } r = w) :
    ∃ q, hostAccess s ⟨s.params.regBase + regOffset r, 4, .write v⟩ = .next { t with response := q } ∧
      hostAccess { t with response := q } ⟨s.params.regBase + regOffset r, 4, .read⟩ =
        .next { t with response := .data w } := by
  refine ⟨.written, (hostAccess_write_plain s h v).trans hwrite, ?_⟩
  rw [← hparams, ← hread]
  exact hostAccess_read_plain { t with response := .written } h

theorem mappedAt_reserved {kmax offset : Nat} (h4 : offset % 4 = 0) (hlt : offset < 0x1000)
    (h : (0x038 ≤ offset ∧ offset < 0x400) ∨ (0x900 ≤ offset ∧ offset < 0xC00) ∨ 0xC00 + 4 * (kmax * kmax) ≤ offset) :
    MappedAt kmax (.reserved offset) where
  inWindow := hlt
  aligned := h4
  selects := regAt_reserved h4 h

/-- R281 does not refuse a reserved offset (log entry 7). -/
theorem answered_reserved (s : State) (offset : Nat) : Answered s (.reserved offset) := by
  simp [Answered, isArray]

/-! ### The fields of a register's word, and IRQ (R31, R32, R36, R38, R45) -/

theorem busy_iff (s : State) : s.busy = true ↔ s.engine ≠ .idle := by
  cases h : s.engine <;> simp [State.busy, h]

theorem status_toWord_flags (st : Status) (busy : Bool) :
    (st.toWord busy).getLsbD 0 = busy ∧ (st.toWord busy).getLsbD 1 = st.done ∧
      (st.toWord busy).getLsbD 2 = st.err ∧ (st.toWord busy).getLsbD 3 = st.ovr ∧
      (st.toWord busy).getLsbD 4 = st.haz := by
  simp only [Status.toWord, BitVec.getLsbD_append]
  simp

theorem status_toWord_errcode (st : Status) (busy : Bool) : (st.toWord busy).extractLsb' 8 4 = st.errcode.code := by
  simp (disch := decide) only [Status.toWord, BitVec.extractLsb'_append_eq_of_le]
  exact BitVec.extractLsb'_append_eq_right

/-- Bits 7:5 and 31:12 of STATUS read 0. -/
theorem status_toWord_zeros (st : Status) (busy : Bool) :
    (st.toWord busy).extractLsb' 5 3 = 0 ∧ (st.toWord busy).extractLsb' 12 20 = 0 := by
  simp (disch := decide) only [Status.toWord, BitVec.extractLsb'_append_eq_of_le]
  exact ⟨BitVec.extractLsb'_append_eq_right, rfl⟩

/-- IER keeps bits 4:1 of the written word. -/
theorem ier_toWord_ofWord (v : Word) : (Ier.ofWord v).toWord = v &&& 0x1E := by
  ext i hi
  rw [← BitVec.getLsbD_eq_getElem]
  simp only [Ier.toWord, Ier.ofWord, BitVec.getLsbD_append]
  interval_cases i <;> simp

theorem eqStatWord_eq (degen : Bool) : eqStatWord degen = if degen then 1 else 0 := by
  cases degen <;> rfl

/-- A field of the `n` low bits, read back, is the written word under its mask. -/
theorem setWidth_field {n : Nat} (hn : n ≤ 32) (v : Word) :
    (v.setWidth n).setWidth 32 = v &&& BitVec.ofNat 32 (2 ^ n - 1) := by
  have hle : 2 ^ n ≤ 2 ^ 32 := Nat.pow_le_pow_right (by decide) hn
  have hpos : 0 < 2 ^ n := Nat.two_pow_pos n
  apply BitVec.eq_of_toNat_eq
  rw [BitVec.toNat_and, BitVec.toNat_ofNat, Nat.mod_eq_of_lt (a := 2 ^ n - 1) (by omega),
    Nat.and_two_pow_sub_one_eq_mod]
  simp
  omega

/-- IRQ, clause by clause (R38). -/
theorem irq_iff (s : State) :
    s.irq = true ↔ (s.status.done = true ∧ s.ier.doneIe = true) ∨ (s.status.err = true ∧ s.ier.errIe = true) ∨
      (s.status.ovr = true ∧ s.ier.ovrIe = true) ∨ (s.status.haz = true ∧ s.ier.hazIe = true) := by
  simp only [State.irq, Bool.or_eq_true, Bool.and_eq_true, or_assoc]

/-! ### The LUT and KMEM windows (R44) -/

/-- The lowest index is in the low byte. -/
theorem extractLsb'_lutWord (lut : Vector Byte 256) (j : Fin 64) {b : Nat} (hb : b < 4) :
    (lutWord lut j).extractLsb' (8 * b) 8 = lut[4 * j.val + b] := by
  unfold lutWord
  match b, hb with
  | 0, _ => exact BitVec.extractLsb'_append_eq_right
  | 1, _ =>
    rw [BitVec.extractLsb'_append_eq_of_le (by omega)]
    exact BitVec.extractLsb'_append_eq_right
  | 2, _ =>
    rw [BitVec.extractLsb'_append_eq_of_le (by omega), BitVec.extractLsb'_append_eq_of_le (by omega)]
    exact BitVec.extractLsb'_append_eq_right
  | 3, _ =>
    rw [BitVec.extractLsb'_append_eq_of_le (by omega), BitVec.extractLsb'_append_eq_of_le (by omega)]
    exact BitVec.extractLsb'_append_eq_left

theorem lutWriteWord_same (lut : Vector Byte 256) (j : Fin 64) (v : Word) {b : Nat} (hb : b < 4) :
    (lutWriteWord lut j v)[4 * j.val + b] = v.extractLsb' (8 * b) 8 := by
  have hdiv : (4 * j.val + b) / 4 = j.val := by omega
  have hmod : (4 * j.val + b) % 4 = b := by omega
  simp [lutWriteWord, hdiv, hmod]

theorem lutWriteWord_other (lut : Vector Byte 256) {j : Fin 64} (v : Word) {i : Fin 256} (hi : i.val / 4 ≠ j.val) :
    (lutWriteWord lut j v)[i] = lut[i] := by
  simp [lutWriteWord, hi]

theorem getD_set_kmem {kmem : List Half} {i : Nat} (hi : i < kmem.length) (w : Half) (k : Nat) :
    (kmem.set i w).getD k 0 = if k = i then w else kmem.getD k 0 := by
  by_cases h : k = i
  · simp [h, hi]
  · simp [h, Ne.symm h]

end Sys2Proof.Machine
end

section
/-! Settled: the architectural state (spec/10_state.md): the register window, its interrupt output and power-on. -/

namespace Sys2Proof.Machine

/-- Settles O45: while idle each window access reaches its array; `extractLsb'_lutWord`, `lutWriteWord_same`,
`lutWriteWord_other` and `getD_set_kmem` say what is read or left there (R44). -/
theorem windowsReachTheArrays : Obligations.WindowsReachTheArrays := by
  intro s v hidle hkmax hkmem
  have hans (r : Reg) : Answered s r := fun _ => hidle
  simp only [Nat.add_assoc]
  refine ⟨fun i => ?hist, fun j => ?lut, fun i hi => ?kmem⟩
  case hist =>
    have hr := mappedAt_hist s.params.kmax i
    exact ⟨hostAccess_read hr (hans _), .written, hostAccess_write hr (hans _) v⟩
  case lut =>
    have hr := mappedAt_lutw s.params.kmax j
    exact ⟨⟨_, hostAccess_read hr (hans _), fun _ hb => extractLsb'_lutWord s.lut j hb⟩, .written, _,
      hostAccess_write hr (hans _) v, fun _ hb => lutWriteWord_same s.lut j v hb,
      fun _ hi => lutWriteWord_other s.lut v hi⟩
  case kmem =>
    have hr := mappedAt_kmem hkmax hi
    exact ⟨hostAccess_read hr (hans _), .written, _, hostAccess_write hr (hans _) v, List.length_set,
      getD_set_kmem (hkmem ▸ hi) _⟩

/-- Settles O40: each of these registers is plain, so its accesses are answered in every state; a read gives `readReg`,
and `writeReg` gives the read-only ones no effect. -/
theorem registerReadsReturnTheirValues : Obligations.RegisterReadsReturnTheirValues := by
  intro s
  have hread {r : Reg} := hostAccess_read_plain s (r := r)
  have hwrite {r : Reg} := hostAccess_write_plain s (r := r)
  simp only [List.forall_mem_cons, ← eqStatWord_eq]
  refine ⟨⟨hread (r := .id) rfl, hread (r := .caps) rfl, hread (r := .ctrl) rfl, hread (r := .cmd) rfl,
    hread (r := .imgBase) rfl, hread (r := .imgW) rfl, hread (r := .imgH) rfl, hread (r := .ksize) rfl,
    hread (r := .kdiv) rfl, hread (r := .eqN) rfl, hread (r := .eqCdfMin) rfl, hread (r := .eqStat) rfl,
    List.forall_mem_nil _⟩, ?writes⟩
  case writes =>
    exact ⟨fun v => ⟨.written, hwrite (r := .id) rfl v⟩, fun v => ⟨.written, hwrite (r := .caps) rfl v⟩,
      fun v => ⟨.written, hwrite (r := .eqN) rfl v⟩, fun v => ⟨.written, hwrite (r := .eqCdfMin) rfl v⟩,
      fun v => ⟨.written, hwrite (r := .eqStat) rfl v⟩, List.forall_mem_nil _⟩

/-- Settles O41: the word read is `State.statusWord`, whose fields the `status_toWord_` lemmas give (R31, R231). -/
theorem statusReadShowsItsFields : Obligations.StatusReadShowsItsFields := by
  intro s
  obtain ⟨hbusy, hdone, herr, hovr, hhaz⟩ := status_toWord_flags s.status s.busy
  obtain ⟨hlow, hhigh⟩ := status_toWord_zeros s.status s.busy
  refine ⟨s.statusWord, hostAccess_read_plain s (r := .status) rfl, ?_, hdone, herr, hovr, hhaz, hlow, ?_, hhigh⟩
  · rw [State.statusWord, hbusy, busy_iff]
  · refine (status_toWord_errcode s.status s.busy).trans ?_
    cases s.status.errcode <;> rfl

/-- Settles O42: the write is the return from a rejection, `State.writeStatus` (R251). -/
theorem statusWriteClearsOnes : Obligations.StatusWriteClearsOnes :=
  fun s v => ⟨.written, hostAccess_write_plain s (r := .status) rfl v⟩

/-- Settles O43, register by register: `ier_toWord_ofWord` for IER, `setWidth_field` for the fields of low bits (R45). -/
theorem narrowFieldsKeepTheirBits : Obligations.NarrowFieldsKeepTheirBits := by
  intro s v
  have hfield {n : Nat} (hn : n ≤ 32) : v.extractLsb' 0 n = v.setWidth n := (BitVec.setWidth_eq_extractLsb' hn).symm
  rw [hfield (n := 16) (by decide), hfield (n := 4) (by decide)]
  have hmask16 : (v.setWidth 16).setWidth 32 = v &&& 0xFFFF := setWidth_field (by decide) v
  have hmask4 : (v.setWidth 4).setWidth 32 = v &&& 0xF := setWidth_field (by decide) v
  intro p hp
  simp only [List.mem_cons, List.not_mem_nil, or_false] at hp
  obtain rfl | rfl | rfl | rfl | rfl | rfl := hp
  · exact hostAccess_write_then_read (r := .ier) rfl rfl rfl (ier_toWord_ofWord v)
  · exact hostAccess_write_then_read (r := .imgBase) rfl rfl rfl rfl
  · exact hostAccess_write_then_read (r := .imgW) rfl rfl rfl hmask16
  · exact hostAccess_write_then_read (r := .imgH) rfl rfl rfl hmask16
  · exact hostAccess_write_then_read (r := .ksize) rfl rfl rfl hmask4
  · exact hostAccess_write_then_read (r := .kdiv) rfl rfl rfl hmask16

/-- Settles O44: such an offset selects no register and no window entry, and it is answered in every state (R37). -/
theorem reservedOffsetsReadZero : Obligations.ReservedOffsetsReadZero := by
  intro s offset v h4 hoffset
  have hr : MappedAt s.params.kmax (.reserved offset) := mappedAt_reserved h4 (by omega) (by omega)
  have hans := answered_reserved s offset
  exact ⟨hostAccess_read hr hans, .written, hostAccess_write hr hans v⟩

/-- Settles O53: a completion sets DONE, and no command's writes touch IER (`effectOf_frame`), so `irq_iff` applies. -/
theorem enabledCompletionRaisesIrq : Obligations.EnabledCompletionRaisesIrq := by
  refine ⟨irq_iff, fun i s l hbusy hie => ?completion⟩
  case completion =>
    obtain ⟨-, -, hier, -⟩ := effectOf_frame i l s
    have hdone : (effectOf i l s).complete.status.done = true := rfl
    have henabled : (effectOf i l s).complete.ier.doneIe = true := by rw [complete_ier, hier, hie]
    exact ⟨_, exec_busy hbusy i, (irq_iff _).mpr (.inl ⟨hdone, henabled⟩), hdone⟩

/-- Settles O55: the words of the cleared registers are computed, every other clause is a field of `State.powerOn`. -/
theorem powerOnClearsTheRegisters : Obligations.PowerOnClearsTheRegisters := by
  rintro p lut kmem imem s rfl
  have hstatus : Status.toWord ⟨false, false, false, false, .none⟩ false = 0 := by decide
  have hier : Ier.toWord ⟨false, false, false, false⟩ = 0 := by decide
  have hirq : (State.powerOn p lut kmem imem).irq = false := rfl
  have hhist (j : Fin 256) : (State.powerOn p lut kmem imem).hist[j] = 0 := Vector.getElem_replicate _
  exact ⟨hstatus, hier, rfl, rfl, rfl, rfl, rfl, rfl, rfl, rfl, eqStatWord_eq false, rfl, hirq, hhist, rfl, rfl, rfl,
    rfl, rfl⟩

end Sys2Proof.Machine
end

section
/-! SUPPORT. Image memory as the host reaches it (R62 to R67): which accesses go on, what a read can do, and the value
that MemWrite leaves. -/

namespace Sys2Proof.Machine

/-! ### The host's accesses (R61, R62, R63) -/

/-- The access is routed, of a legal width, and aligned. -/
def Admitted (p : Params) (a : HostAccess) : Prop :=
  (∃ offset, route p a.addr = some (.register offset) ∧ a.registerAligned offset = true) ∨
    ∃ address, route p a.addr = some (.imem address) ∧ a.imemAligned address = true

/-- The parameters and the access alone decide whether it goes on (R65). -/
theorem hostAccess_next_iff (s : State) (a : HostAccess) :
    (∃ t, hostAccess s a = .next t) ↔ Admitted s.params a := by
  obtain ⟨hr, h⟩ | ⟨offset, hr, ⟨ha, h⟩ | ⟨ha, h⟩⟩ | ⟨address, hr, ⟨ha, h⟩ | ⟨ha, h⟩⟩ := hostAccess_cases s a
  · simp [Admitted, hr, h]
  · simp [Admitted, hr, h, ha]
  · simp [Admitted, hr, h, ha, accessReg_total]
  · simp [Admitted, hr, h, ha]
  · simp [Admitted, hr, h, ha, accessImem_total]

theorem hostAccess_registerBusError (s : State) {offset w : Nat} {k : AccessKind} (h : offset < 0x1000)
    (hbad : ¬ (w = 4 ∧ offset % 4 = 0)) : hostAccess s ⟨s.params.regBase + offset, w, k⟩ =
      .fault (.registerBusError ⟨s.params.regBase + offset, w, k⟩) := by
  simp [hostAccess, route_reg s.params h, HostAccess.registerAligned, hbad]

theorem hostAccess_imemBusError (s : State) (hp : s.params.disjoint = true) {a w : Nat} {k : AccessKind}
    (h : a < s.params.imemSize) (hbad : ¬ ((w = 1 ∨ w = 2 ∨ w = 4) ∧ a % w = 0)) :
    hostAccess s ⟨s.params.imemBase + a, w, k⟩ = .fault (.imemBusError ⟨s.params.imemBase + a, w, k⟩) := by
  simp [hostAccess, route_imem hp h, HostAccess.imemAligned, or_assoc, hbad]

theorem disjoint_of_legal {p : Params} (h : p.legal = true) : p.disjoint = true := by
  simp only [Params.legal, Bool.and_eq_true] at h
  obtain ⟨⟨⟨⟨-, hdisjoint⟩, -⟩, -⟩, -⟩ := h
  exact hdisjoint

/-! ### A host read (R67, R281) -/

/-- What a read of CHEQ leaves: a value on the bus, or, while busy, a refusal. -/
def ReadOutcome (s t : State) : Prop :=
  (∃ v, t = { s with response := .data v }) ∨ (s.engine ≠ .idle ∧ ∃ width, t = s.refuseRead width)

theorem accessReg_read_outcome {s t : State} {r : Reg} (h : accessReg s r .read = .next t) : ReadOutcome s t := by
  unfold accessReg at h
  split at h
  · rename_i hrefused
    exact .inr ⟨(busy_iff s).mp (Bool.and_eq_true_iff.mp hrefused).1, 4, (Host.Outcome.next.inj h).symm⟩
  · exact .inl ⟨_, (Host.Outcome.next.inj h).symm⟩

theorem accessImem_read_outcome {s t : State} {a w : Nat} (h : accessImem s a w .read = .next t) : ReadOutcome s t := by
  unfold accessImem at h
  split at h
  · rename_i hbusy
    exact .inr ⟨(busy_iff s).mp hbusy, w, (Host.Outcome.next.inj h).symm⟩
  · exact .inl ⟨_, (Host.Outcome.next.inj h).symm⟩

theorem hostAccess_read_outcome {s t : State} {addr w : Nat} (h : hostAccess s ⟨addr, w, .read⟩ = .next t) :
    ReadOutcome s t := by
  obtain ⟨-, h'⟩ | ⟨_, -, ⟨-, h'⟩ | ⟨-, h'⟩⟩ | ⟨_, -, ⟨-, h'⟩ | ⟨-, h'⟩⟩ := hostAccess_cases s ⟨addr, w, .read⟩ <;>
    rw [h'] at h
  case inl => cases h
  case inr.inl.inl => cases h
  case inr.inl.inr => exact accessReg_read_outcome h
  case inr.inr.inl => cases h
  case inr.inr.inr => exact accessImem_read_outcome h

/-! ### Idle accesses to image memory, and MemRead after MemWrite (R64) -/

theorem accessImem_read_idle {s : State} (h : s.engine = .idle) (a w : Nat) :
    accessImem s a w .read = .next { s with response := .data (BitVec.ofNat 32 (s.imem.readN a w)) } := by
  simp [accessImem, busy_of_idle h]

theorem accessImem_write_idle {s : State} (h : s.engine = .idle) (a w : Nat) (v : Word) :
    accessImem s a w (.write v) = .next { s with imem := s.imem.writeN a w v, response := .written } := by
  simp [accessImem, busy_of_idle h]

theorem readN_succ (m : Memory) (a n : Nat) :
    m.readN a (n + 1) = m.readN a n + (m.read (a + n)).toNat * 2 ^ (8 * n) := by
  simp [Memory.readN, List.range_succ]

/-- Bytes that are those of a value, lowest first, read as the value's low bytes. -/
theorem readN_of_bytes {m : Memory} {a n : Nat} {v : Word} (h : ∀ i < n, m.read (a + i) = v.extractLsb' (8 * i) 8) :
    m.readN a n = v.toNat % 2 ^ (8 * n) := by
  induction n with
  | zero => simp [Memory.readN, Nat.mod_one]
  | succ n ih =>
    have hlow : m.readN a n = v.toNat % 2 ^ (8 * n) := ih fun i hi => h i (by omega)
    have hbyte : (m.read (a + n)).toNat = v.toNat / 2 ^ (8 * n) % 2 ^ 8 := by
      rw [h n (by omega), BitVec.extractLsb'_toNat, Nat.shiftRight_eq_div_pow]
    rw [readN_succ, hlow, hbyte, Nat.mul_succ, Nat.pow_add, Nat.mod_mul, Nat.mul_comm (2 ^ (8 * n))]

theorem readN_writeN {m : Memory} (hm : m.wf = true) (a n : Nat) (v : Word) :
    (m.writeN a n v).readN a n = v.toNat % 2 ^ (8 * n) :=
  readN_of_bytes fun _ hi => read_writeN hm a n v hi

end Sys2Proof.Machine
end

section
/-! SUPPORT. Image memory as the engine reaches it (R70, R72): the bounds check of an empty image, the bytes a command
writes, and the snapshot bytes it reads. -/

namespace Sys2Proof.Machine

/-! ### The checks of an empty image (R72, R237) -/

theorem boundsCheck_of_empty {s : State} (hbase : s.imgBase.toNat < s.params.imemSize)
    (hempty : s.imgW.toNat * s.imgH.toNat = 0) (f : Format) : boundsCheck f s = .none := by
  have hbytes : imageBytes f s.imgW s.imgH = 0 := by simp [imageBytes, hempty]
  rw [boundsCheck, if_neg (by omega)]

theorem kernelCheck_ne_boundsErr (s : State) : kernelCheck s ≠ .boundsErr := by
  unfold kernelCheck
  split
  · simp
  · split <;> simp

/-- With bounds that hold for every format, only the kernel checks are left, and they are those of CONV. -/
theorem check_of_bounds_none {i : Instr} {s : State} (hb : ∀ f, boundsCheck f s = .none) :
    check i s = if isConv i then kernelCheck s else .none := by
  cases hc : isConv i with
  | true =>
    obtain ⟨f, hf⟩ := isConv_format hc
    rw [check_of_conv hc hf, hb f, if_pos rfl]
    exact ite_eq_left_iff.mpr fun h => (not_not.mp h).symm
  | false =>
    rw [check_of_not_conv hc]
    cases imageFormat i <;> simp [hb]

theorem isConv_iff (i : Instr) : isConv i = true ↔ i = .convG ∨ i = .convC := by
  cases i <;> decide

/-! ### What a command writes (R70) -/

/-- The address lies in REGION. -/
def Latch.InRegion (l : Latch) (f : Format) (a : Nat) : Prop :=
  l.imgBase.toNat ≤ a ∧ a < l.imgBase.toNat + imageBytes f l.imgW l.imgH

theorem convCells_inRegion {l : Latch} {f : Format} {kmem : List Half} {cell : Host.Cell}
    (h : cell ∈ convCells l f kmem) : l.InRegion f cell.1 := by
  obtain ⟨x, y, c, hi, hc, rfl⟩ := mem_convCells.mp h
  have hxy := interior_iff.mp hi
  exact pix_mem_region (by omega) (by omega) hc

theorem lutCells_inRegion {lut : Vector Byte 256} {l : Latch} {f : Format} {cell : Host.Cell}
    (h : cell ∈ lutCells lut l f) : l.InRegion f cell.1 := by
  obtain ⟨x, y, c, hx, hy, hc, rfl⟩ := mem_lutCells.mp h
  exact pix_mem_region hx hy hc

/-- Execution writes cells of the command's own region, and so none where it has no image. -/
theorem effectOf_imem (i : Instr) (l : Latch) (s : State) :
    ∃ cells, (effectOf i l s).imem = s.imem.writeCells cells ∧
      ∀ cell ∈ cells, ∃ f, imageFormat i = some f ∧ l.InRegion f cell.1 := by
  cases i with
  | convG => exact ⟨_, rfl, fun _ h => ⟨.gray, rfl, convCells_inRegion h⟩⟩
  | convC => exact ⟨_, rfl, fun _ h => ⟨.color, rfl, convCells_inRegion h⟩⟩
  | lutapG => exact ⟨_, rfl, fun _ h => ⟨.gray, rfl, lutCells_inRegion h⟩⟩
  | lutapC => exact ⟨_, rfl, fun _ h => ⟨.color, rfl, lutCells_inRegion h⟩⟩
  | equalG => exact ⟨_, rfl, fun _ h => ⟨.gray, rfl, lutCells_inRegion h⟩⟩
  | equalC => exact ⟨_, rfl, fun _ h => ⟨.color, rfl, lutCells_inRegion h⟩⟩
  | nop | histoG | histoC | eqlut | loadkBox | loadkGauss | loadkSharpen | loadkOutline | loadkEmboss =>
    exact ⟨[], rfl, List.forall_mem_nil _⟩

/-! ### What a command reads (R70) -/

/-- Another snapshot for the same command in flight. -/
def Latch.withSnapshot (l : Latch) (m : Memory) : Latch := { l with snapshot := m }

/-- The two snapshots agree on every byte of the image. -/
def Latch.SameImage (l : Latch) (f : Format) (m : Memory) : Prop :=
  ∀ x y c, x < l.imgW.toNat → y < l.imgH.toNat → c < bpp f → (l.withSnapshot m).p0 f x y c = l.p0 f x y c

theorem sameImage_of_agree {l : Latch} {f : Format} {m : Memory}
    (h : ∀ a, l.InRegion f a → m.read a = l.snapshot.read a) : l.SameImage f m :=
  fun _ _ _ hx hy hc => h _ (pix_mem_region hx hy hc)

theorem bgr_withSnapshot {l : Latch} {m : Memory} (h : l.SameImage .color m) {x y : Nat} (hx : x < l.imgW.toNat)
    (hy : y < l.imgH.toNat) : (l.withSnapshot m).bgr x y = l.bgr x y := by
  simp only [Latch.bgr, h x y 0 hx hy (by decide), h x y 1 hx hy (by decide), h x y 2 hx hy (by decide)]

section
variable {l : Latch} {f : Format} {m : Memory} (h : l.SameImage f m)
include h

/-- An odd side keeps the window of an interior pixel inside the image (R123). -/
theorem convSum_withSnapshot (hodd : l.ksize.toNat % 2 = 1) (kmem : List Half) {x y c : Nat}
    (hi : l.interior x y = true) (hc : c < bpp f) :
    convSum (l.withSnapshot m) f kmem x y c = convSum l f kmem x y c := by
  have hxy := interior_iff.mp hi
  have hside : l.ksize.toNat = 2 * l.half + 1 := by unfold Latch.half; omega
  unfold convSum
  refine congrArg List.sum (List.map_congr_left fun rc hrc => ?_)
  have hwindow : rc.1 < l.ksize.toNat ∧ rc.2 < l.ksize.toNat := mem_coords.mp hrc
  have hread : (l.withSnapshot m).p0 f (x + rc.1 - l.half) (y + rc.2 - l.half) c =
      l.p0 f (x + rc.1 - l.half) (y + rc.2 - l.half) c := h _ _ c (by omega) (by omega) hc
  exact congrArg (kernelWeight kmem (rc.2 * l.ksize.toNat + rc.1) * sample ·) hread

theorem convCells_withSnapshot (hodd : l.ksize.toNat % 2 = 1) (kmem : List Half) :
    convCells (l.withSnapshot m) f kmem = convCells l f kmem := by
  refine List.flatMap_congr fun p hp => List.map_congr_left fun c hc => ?_
  have hsum := convSum_withSnapshot h hodd kmem (mem_interiorPixels.mp hp) (List.mem_range.mp hc)
  exact congrArg (fun sum => (l.pix f p.1 p.2 c, clampRound sum l.kdiv.toNat)) hsum

theorem accumulate_withSnapshot : accumulate f (l.withSnapshot m) = accumulate f l := by
  have hkeys : l.pixels.map (pixelKey (l.withSnapshot m) f) = l.pixels.map (pixelKey l f) := by
    refine List.map_congr_left fun p hp => ?_
    obtain ⟨hx, hy⟩ := mem_pixels.mp hp
    cases f with
    | gray => exact h _ _ 0 hx hy (by decide)
    | color => simp only [pixelKey, bgr_withSnapshot h hx hy]
  exact congrArg (List.foldl bump (Vector.replicate 256 0)) hkeys

theorem lutCells_withSnapshot (lut : Vector Byte 256) : lutCells lut (l.withSnapshot m) f = lutCells lut l f := by
  cases f with
  | gray =>
    refine List.map_congr_left fun p hp => ?_
    obtain ⟨hx, hy⟩ := mem_pixels.mp hp
    exact congrArg (fun b => (l.pix .gray p.1 p.2 0, lutAt lut b)) (h _ _ 0 hx hy (by decide))
  | color =>
    refine List.flatMap_congr fun p hp => ?_
    obtain ⟨hx, hy⟩ := mem_pixels.mp hp
    simp only [bgr_withSnapshot h hx hy]
    rfl

theorem convolve_withSnapshot (hodd : l.ksize.toNat % 2 = 1) (s : State) :
    convolve f (l.withSnapshot m) s = convolve f l s := by
  simp only [convolve, convCells_withSnapshot h hodd]

theorem histogram_withSnapshot (s : State) : histogram f (l.withSnapshot m) s = histogram f l s := by
  simp only [histogram, accumulate_withSnapshot h]

theorem applyTable_withSnapshot (s : State) : applyTable f (l.withSnapshot m) s = applyTable f l s := by
  simp only [applyTable, lutCells_withSnapshot h]

theorem equalize_withSnapshot (s : State) : equalize f (l.withSnapshot m) s = equalize f l s := by
  simp only [equalize, histogram_withSnapshot h, applyTable_withSnapshot h]

end

/-- Execution takes nothing from the snapshot but the bytes of its own image. -/
theorem effectOf_withSnapshot {i : Instr} {l : Latch} {m : Memory} (hodd : isConv i = true → l.ksize.toNat % 2 = 1)
    (hsame : ∀ f, imageFormat i = some f → l.SameImage f m) (s : State) :
    effectOf i (l.withSnapshot m) s = effectOf i l s := by
  cases i with
  | convG => exact convolve_withSnapshot (hsame .gray rfl) (hodd rfl) s
  | convC => exact convolve_withSnapshot (hsame .color rfl) (hodd rfl) s
  | histoG => exact histogram_withSnapshot (hsame .gray rfl) s
  | histoC => exact histogram_withSnapshot (hsame .color rfl) s
  | lutapG => exact applyTable_withSnapshot (hsame .gray rfl) s
  | lutapC => exact applyTable_withSnapshot (hsame .color rfl) s
  | equalG => exact equalize_withSnapshot (hsame .gray rfl) s
  | equalC => exact equalize_withSnapshot (hsame .color rfl) s
  | nop | eqlut | loadkBox | loadkGauss | loadkSharpen | loadkOutline | loadkEmboss => rfl

/-- Execution reads LATCH through its argument only, and completion overwrites ESTATE (R214). -/
theorem effectOf_complete_engine (i : Instr) (l : Latch) (s : State) (e : Engine) :
    (effectOf i l { s with engine := e }).complete = (effectOf i l s).complete := by
  cases i <;> rfl

end Sys2Proof.Machine
end

section
/-! Settled: image memory (spec/20_memory.md): the host's accesses to it, and the engine's region. -/

namespace Sys2Proof.Machine

/-- Settles O46: `hostAccess_reg` and `hostAccess_imem` route the legal accesses, which no longer stop; the others are
the two bus errors (R62, R63). -/
theorem busErrorsAreWidthAndAlignment : Obligations.BusErrorsAreWidthAndAlignment := by
  intro s n w k hlegal
  have hdisjoint := disjoint_of_legal hlegal
  refine ⟨fun hn => ⟨?registerGoesOn, hostAccess_registerBusError s hn⟩,
    fun hn => ⟨?imemGoesOn, hostAccess_imemBusError s hdisjoint hn⟩⟩
  case registerGoesOn =>
    rintro ⟨rfl, h4⟩
    rw [hostAccess_reg s hn h4]
    exact accessReg_total s _ k
  case imemGoesOn =>
    rintro ⟨hw, halign⟩
    rw [hostAccess_imem s hdisjoint hn hw halign]
    exact accessImem_total s n w k

/-- Settles O47: a read that goes on leaves one of the two states of `ReadOutcome` (R67, R281). -/
theorem hostReadsHaveNoSideEffect : Obligations.HostReadsHaveNoSideEffect := by
  intro s t addr width h
  obtain ⟨v, ht⟩ | ⟨hbusy, w, ht⟩ := hostAccess_read_outcome h
  · exact ⟨v, .inl ht⟩
  · exact ⟨_, .inr ⟨hbusy, ht⟩⟩

/-- Settles O49: an idle write is MemWrite, an idle read is MemRead, and `readN_writeN` takes the one back by the other
(R64). -/
theorem imemAccessIsLittleEndian : Obligations.ImemAccessIsLittleEndian := by
  intro s a n v hlegal hidle hwf hn halign ha
  have hdisjoint := disjoint_of_legal hlegal
  refine ⟨.written, s.imem.writeN a n v, ?write, fun i hi => read_writeN hwf a n v hi,
    fun b hb => read_writeN_ne s.imem v hb, ?read⟩
  case write =>
    rw [hostAccess_imem s hdisjoint ha hn halign, accessImem_write_idle hidle]
  case read =>
    rw [← readN_writeN hwf a n v]
    exact (hostAccess_imem { s with imem := s.imem.writeN a n v } hdisjoint ha hn halign .read).trans
      (accessImem_read_idle (s := { s with imem := s.imem.writeN a n v }) hidle a n)

/-- Settles O59: the engine's move is `exec`, which is total (R213); `wait` and `takeIrq` go on by definition; whether
an access goes on hangs on the parameters alone, so the script and `turns` used up before it do not matter. -/
theorem onlyHostAccessesStop : Obligations.OnlyHostAccessesStop := by
  intro s hnext
  obtain ⟨-, -, h⟩ | ⟨l, ts, -, h⟩ | ⟨line, rest, ts, hscript, hmover, -, -, h⟩ := step_cases s
  · exact ⟨s, h⟩
  · obtain ⟨t, ht⟩ := exec_total l.instr { s with turns := ts }
    exact ⟨t, h.trans ht⟩
  · rw [SafeStep, h]
    cases line with
    | access a =>
      have hadmitted : Admitted s.params a := (hostAccess_next_iff s a).mp (hnext a rest hscript hmover)
      obtain ⟨t, ht⟩ := (hostAccess_next_iff { s with turns := ts, script := rest } a).mpr hadmitted
      exact ⟨t, by simpa [hostStep, hscript] using ht⟩
    | wait => simp [hostStep, hscript]
    | takeIrq => simp [hostStep, hscript]

/-- Settles O15: an image of no pixels passes the bounds check wherever IMG_BASE lies in image memory (R72), so a
rejection comes from the kernel checks, which only CONV has. -/
theorem emptyImageIsNeverOutOfBounds : Obligations.EmptyImageIsNeverOutOfBounds := by
  intro i s hinv hidle hempty
  have hcheck := check_of_bounds_none (i := i) (boundsCheck_of_empty hinv.base hempty)
  refine ⟨s.issue i, exec_idle hidle i, fun hstill => ?_⟩
  obtain ⟨-, hissue⟩ | ⟨hfail, hissue⟩ := issue_cases i s <;> rw [hissue] at hstill ⊢
  case inl => simp at hstill
  case inr =>
    rw [reject_status]
    cases hc : isConv i with
    | false => simp [hcheck, hc] at hfail
    | true =>
      rw [hcheck, hc, if_pos rfl]
      exact ⟨(isConv_iff i).mp hc, kernelCheck_ne_boundsErr s⟩

/-- Settles O38: execution writes only cells of the region (`effectOf_imem`), and completion writes none (R70). -/
theorem engineWritesOnlyItsRegion : Obligations.EngineWritesOnlyItsRegion := by
  intro i s t l hbusy hexec
  obtain ⟨cells, himem, hcells⟩ := effectOf_imem i l s
  have ht : t.imem = s.imem.writeCells cells := by
    rw [← Host.Outcome.next.inj ((exec_busy hbusy i).symm.trans hexec), complete_imem, himem]
  rw [ht]
  refine ⟨fun f hf a ha => read_writeCells_ne s.imem fun cell hcell hcella => ?outside, fun hf => ?noImage⟩
  case outside =>
    obtain ⟨g, hg, hlow, hhigh⟩ := hcells cell hcell
    obtain rfl : f = g := Option.some.inj (hf.symm.trans hg)
    unfold imageBytes at hhigh
    omega
  case noImage =>
    have hnone : cells = [] := List.eq_nil_iff_forall_not_mem.mpr fun cell hcell => by
      obtain ⟨g, hg, -⟩ := hcells cell hcell
      simp [hf] at hg
    rw [hnone, writeCells_nil]

/-- Settles O39: both runs complete, and their writes are the same since they read the same image (R70). -/
theorem engineReadsOnlyItsRegion : Obligations.EngineReadsOnlyItsRegion := by
  intro i s l m hbusy hodd hagree
  have hsame (f : Format) (hf : imageFormat i = some f) : l.SameImage f m :=
    sameImage_of_agree fun a ⟨hlow, hhigh⟩ => hagree f hf a hlow hhigh
  calc exec i { s with engine := .busy (l.withSnapshot m) }
      = .next (effectOf i (l.withSnapshot m) { s with engine := .busy (l.withSnapshot m) }).complete := exec_busy rfl i
    _ = .next (effectOf i l s).complete := by rw [effectOf_complete_engine, effectOf_withSnapshot hodd hsame]
    _ = exec i s := (exec_busy hbusy i).symm

end Sys2Proof.Machine
end

section
/-! SUPPORT. The decoder, branch by branch (R99): it reads the fields of a row as the row's command (R95, R96), and rejects
only fields that R97 makes illegal. -/

namespace Sys2Proof

/-! ### The conditions of R97 -/

/-- An OP without a pixel format, and FMT set. -/
theorem fmtOk_eq_false_iff (f : CommandFields) :
    f.fmtOk = false ↔ f.op ∈ ([0x0, 0x3, 0x6] : List (BitVec 4)) ∧ f.fmt = 1 := by
  have hone : ∀ b : BitVec 1, b = 1 ↔ b ≠ 0 := by decide
  rw [hone]
  simp [CommandFields.fmtOk, ← or_iff_not_imp_left]

/-- PRESET without LOADK, or a PRESET outside the catalog. -/
theorem presetOk_eq_false_iff (f : CommandFields) :
    f.presetOk = false ↔
      (f.op ≠ 0x6 ∧ f.preset ≠ 0) ∨ (f.op = 0x6 ∧ f.preset ∈ ([5, 6, 7] : List (BitVec 3))) := by
  have hcatalog : ∀ p : BitVec 3, p ∈ ([5, 6, 7] : List (BitVec 3)) ↔ ¬ p.toNat ≤ 4 := by decide
  rw [hcatalog, CommandFields.presetOk]
  by_cases h : f.op = 6#4 <;> simp [h]

theorem legal_eq_false_iff (f : CommandFields) :
    f.legal = false ↔ f.rsvd ≠ 0 ∨ 7 ≤ f.op.toNat ∨ (f.op ∈ ([0x0, 0x3, 0x6] : List (BitVec 4)) ∧ f.fmt = 1) ∨
      (f.op ≠ 0x6 ∧ f.preset ≠ 0) ∨ (f.op = 0x6 ∧ f.preset ∈ ([5, 6, 7] : List (BitVec 3))) := by
  have hrsvd : f.rsvdOk = false ↔ f.rsvd ≠ 0 := by simp [CommandFields.rsvdOk]
  have hop : f.opOk = false ↔ 7 ≤ f.op.toNat := by simp [CommandFields.opOk]
  simp only [CommandFields.legal, Bool.and_eq_false_iff, hrsvd, hop, fmtOk_eq_false_iff, presetOk_eq_false_iff, or_assoc]

/-! ### The rows of R96 -/

/-- The per-instruction laws, as one statement about every command. -/
theorem encodeLegal : ∀ i : Instr, Laws.EncodeLegal.Statement i
  | .nop => Laws.EncodeLegal.nop
  | .convG => Laws.EncodeLegal.convG
  | .convC => Laws.EncodeLegal.convC
  | .histoG => Laws.EncodeLegal.histoG
  | .histoC => Laws.EncodeLegal.histoC
  | .eqlut => Laws.EncodeLegal.eqlut
  | .lutapG => Laws.EncodeLegal.lutapG
  | .lutapC => Laws.EncodeLegal.lutapC
  | .equalG => Laws.EncodeLegal.equalG
  | .equalC => Laws.EncodeLegal.equalC
  | .loadkBox => Laws.EncodeLegal.loadkBox
  | .loadkGauss => Laws.EncodeLegal.loadkGauss
  | .loadkSharpen => Laws.EncodeLegal.loadkSharpen
  | .loadkOutline => Laws.EncodeLegal.loadkOutline
  | .loadkEmboss => Laws.EncodeLegal.loadkEmboss

theorem fieldsOf_encode (i : Instr) : fieldsOf (encode i) = i.fields := (encodeLegal i).1

theorem fields_legal (i : Instr) : i.fields.legal = true := (encodeLegal i).2

/-- A word has the fields of a row just when it is the row's word (R91). -/
theorem fieldsOf_eq_fields_iff {w : Word} {i : Instr} : fieldsOf w = i.fields ↔ w = encode i := by
  refine ⟨fun h => ?_, fun h => h ▸ fieldsOf_encode i⟩
  rw [← wordOfFields_fieldsOf w, h, encode]

/-! ### What the decoder answers -/

/-- A right answer to the fields `f`: the command whose row they are, or an error, `f` being illegal. -/
def Answers (f : CommandFields) (r : Except DecodeError Instr) : Prop :=
  (∃ i, r = .ok i ∧ f = i.fields) ∨ ((∃ e, r = .error e) ∧ f.legal = false)

theorem answers_ok {f : CommandFields} {i : Instr} (h : f = i.fields) : Answers f (.ok i) := .inl ⟨i, rfl, h⟩

theorem answers_error {f : CommandFields} (e : DecodeError) (h : f.legal = false) : Answers f (.error e) :=
  .inr ⟨⟨e, rfl⟩, h⟩

theorem illegal_of_fmt {f : CommandFields} (hop : f.op ∈ ([0x0, 0x3, 0x6] : List (BitVec 4))) (h : f.fmt ≠ 0) :
    f.legal = false :=
  (legal_eq_false_iff f).mpr (.inr (.inr (.inl ⟨hop, (BitVec.eq_zero_or_eq_one f.fmt).resolve_left h⟩)))

theorem illegal_of_preset {f : CommandFields} (hop : f.op ≠ 6) (h : f.preset ≠ 0) : f.legal = false :=
  (legal_eq_false_iff f).mpr (.inr (.inr (.inr (.inl ⟨hop, h⟩))))

section
variable {preset : BitVec 3} {fmt : BitVec 1} {op : BitVec 4}

theorem decodeUnformatted_answers {i : Instr} (hformat : op ∈ ([0x0, 0x3, 0x6] : List (BitVec 4))) (hop : op ≠ 6)
    (hrow : i.fields = ⟨0, 0, 0, op⟩) :
    Answers ⟨0, preset, fmt, op⟩ (decodeUnformatted ⟨0, preset, fmt, op⟩ i) := by
  unfold decodeUnformatted
  split_ifs with hfmt hpreset
  · exact answers_error _ (illegal_of_fmt hformat hfmt)
  · exact answers_error _ (illegal_of_preset hop hpreset)
  · obtain rfl : fmt = 0 := not_not.mp hfmt
    obtain rfl : preset = 0 := not_not.mp hpreset
    exact answers_ok hrow.symm

theorem decodeFormatted_answers {gray color : Instr} (hop : op ≠ 6) (hgray : gray.fields = ⟨0, 0, 0, op⟩)
    (hcolor : color.fields = ⟨0, 0, 1, op⟩) :
    Answers ⟨0, preset, fmt, op⟩ (decodeFormatted ⟨0, preset, fmt, op⟩ gray color) := by
  by_cases hpreset : preset = 0
  case neg =>
    rw [decodeFormatted, if_pos hpreset]
    exact answers_error _ (illegal_of_preset hop hpreset)
  case pos =>
    subst hpreset
    obtain rfl | rfl := BitVec.eq_zero_or_eq_one fmt
    · exact answers_ok hgray.symm
    · exact answers_ok hcolor.symm

/-- The catalog (R93), and the PRESET values outside it. -/
theorem preset_cases : ∀ p : BitVec 3, p = 0 ∨ p = 1 ∨ p = 2 ∨ p = 3 ∨ p = 4 ∨ p ∈ ([5, 6, 7] : List (BitVec 3)) := by
  decide

theorem decodeLoadk_outsideCatalog : ∀ p ∈ ([5, 6, 7] : List (BitVec 3)),
    decodeLoadk ⟨0, p, 0, 6⟩ = .error .presetOutsideCatalog := by
  decide

theorem decodeLoadk_answers : Answers ⟨0, preset, fmt, 6⟩ (decodeLoadk ⟨0, preset, fmt, 6⟩) := by
  by_cases hfmt : fmt = 0
  case neg =>
    rw [decodeLoadk, if_pos hfmt]
    exact answers_error _ (illegal_of_fmt (by simp) hfmt)
  case pos =>
    subst hfmt
    obtain rfl | rfl | rfl | rfl | rfl | hout := preset_cases preset
    · exact answers_ok (i := .loadkBox) rfl
    · exact answers_ok (i := .loadkGauss) rfl
    · exact answers_ok (i := .loadkSharpen) rfl
    · exact answers_ok (i := .loadkOutline) rfl
    · exact answers_ok (i := .loadkEmboss) rfl
    · rw [decodeLoadk_outsideCatalog preset hout]
      exact answers_error _ ((legal_eq_false_iff _).mpr (.inr (.inr (.inr (.inr ⟨rfl, hout⟩)))))

/-- The OP values of R95, and the reserved ones. -/
theorem op_cases :
    ∀ op : BitVec 4, op = 0 ∨ op = 1 ∨ op = 2 ∨ op = 3 ∨ op = 4 ∨ op = 5 ∨ op = 6 ∨ 7 ≤ op.toNat := by
  decide

theorem decodeFields_reservedOp {f : CommandFields} (hrsvd : f.rsvd = 0) (hop : 7 ≤ f.op.toNat) :
    decodeFields f = .error .reservedOp := by
  rw [decodeFields, if_neg (not_not.mpr hrsvd)]
  split
  case h_8 => rfl
  all_goals omega

/-- R99, R97: only legal fields are read, each as the command of its own row. -/
theorem decodeFields_answers (f : CommandFields) : Answers f (decodeFields f) := by
  obtain ⟨rsvd, preset, fmt, op⟩ := f
  by_cases hrsvd : rsvd = 0
  case neg =>
    rw [decodeFields, if_pos hrsvd]
    exact answers_error _ ((legal_eq_false_iff _).mpr (.inl hrsvd))
  case pos =>
    subst hrsvd
    obtain rfl | rfl | rfl | rfl | rfl | rfl | rfl | hop := op_cases op
    · exact decodeUnformatted_answers (by simp) (by simp) rfl
    · exact decodeFormatted_answers (by simp) rfl rfl
    · exact decodeFormatted_answers (by simp) rfl rfl
    · exact decodeUnformatted_answers (by simp) (by simp) rfl
    · exact decodeFormatted_answers (by simp) rfl rfl
    · exact decodeFormatted_answers (by simp) rfl rfl
    · exact decodeLoadk_answers
    · rw [decodeFields_reservedOp rfl hop]
      exact answers_error _ ((legal_eq_false_iff _).mpr (.inr (.inl hop)))

end

theorem decodeFields_fields (i : Instr) : decodeFields i.fields = .ok i := by
  cases i <;> rfl

theorem decode_eq_ok_iff {w : Word} {i : Instr} : decode w = .ok i ↔ w = encode i := by
  rw [← fieldsOf_eq_fields_iff]
  refine ⟨fun h => ?_, fun h => (congrArg decodeFields h).trans (decodeFields_fields i)⟩
  obtain ⟨j, hj, hfields⟩ | ⟨⟨e, he⟩, -⟩ := decodeFields_answers (fieldsOf w)
  · rw [hfields, Except.ok.inj (h.symm.trans hj)]
  · cases h.symm.trans he

theorem decode_eq_error_iff {w : Word} : (∃ e, decode w = .error e) ↔ (fieldsOf w).legal = false := by
  obtain ⟨i, hi, hfields⟩ | ⟨he, hlegal⟩ := decodeFields_answers (fieldsOf w)
  · have hlegal : (fieldsOf w).legal = true := hfields ▸ fields_legal i
    have hdecode : decode w = .ok i := hi
    simp [hdecode, hlegal]
  · exact iff_of_true he hlegal

end Sys2Proof
end

section
/-! SUPPORT. The host's move, and its wait line (R101). -/

namespace Sys2Proof.Machine

/-- The host moves from the state but for `turns`. -/
theorem step_host {s : State} {line : HostLine} {rest : List HostLine} (hs : s.script = line :: rest)
    (hm : mover s = some .host) : ∃ ts, step s = hostStep { s with turns := ts } := by
  obtain hidle | ⟨l, ts, hbusy, hturns⟩ := mover_host_cases hs hm
  · exact ⟨s.turns, step_idle hidle hs⟩
  · exact ⟨ts, step_host_turn hbusy hs hturns⟩

theorem statusWord_bit0 (s : State) : s.statusWord.getLsbD 0 = s.busy := (status_toWord_flags s.status s.busy).1

theorem hostStep_wait {s : State} {rest : List HostLine} (hs : s.script = .wait :: rest) :
    hostStep s = .next { s with response := .data s.statusWord, script := if s.busy then s.script else rest } := by
  rw [← statusWord_bit0, hostStep, hs]

theorem wait_script_eq_iff {s : State} {rest : List HostLine} (hs : s.script = .wait :: rest) :
    (if s.busy then s.script else rest) = rest ↔ s.engine = .idle := by
  by_cases h : s.busy = true
  · simp [h, hs, (busy_iff s).mp h]
  · simp [h, not_not.mp (mt (busy_iff s).mpr h)]

end Sys2Proof.Machine
end

section
/-! Settled: the command words and the wait line (spec/30_encoding.md). -/

namespace Sys2Proof.Machine

/-- Settles O2: the decoder reads a command from its encoding alone (`decode_eq_ok_iff`), and the one row of
each command holds its encoding (R96). -/
theorem exactlyFifteenWordsDecode : Obligations.ExactlyFifteenWordsDecode := by
  intro w i
  rw [decode_eq_ok_iff]
  cases i <;> simp [encode, wordOfFields, Instr.fields]

/-- Settles O4: the decoder rejects exactly the illegal fields, and `legal_eq_false_iff` lists them (R97). -/
theorem illegalWordsAreTheFiveConditions : Obligations.IllegalWordsAreTheFiveConditions :=
  fun w => decode_eq_error_iff.trans (legal_eq_false_iff (fieldsOf w))

/-- Settles O54: the host's move is its wait line (`hostStep_wait`), which stays while BUSY, bit 0 of STATUS, is set
(R101). -/
theorem waitGoesOnWhenIdle : Obligations.WaitGoesOnWhenIdle := by
  intro s rest hs hm
  obtain ⟨ts, hstep⟩ := step_host hs hm
  refine ⟨_, hstep.trans (hostStep_wait hs), rfl, wait_script_eq_iff hs, fun hbusy => ?_, rfl, rfl, rfl⟩
  exact if_pos ((busy_iff s).mpr hbusy)

end Sys2Proof.Machine
end

section
/-! SUPPORT. The convolution family at completion (R120 to R132): what the engine leaves of the state, the byte of every
pixel after a convolution, the window of an interior pixel, and the size of the sum. -/

namespace Sys2Proof.Machine

/-! ### Completion (R213, R214) -/

theorem completed_effectOf (i : Instr) (l : Latch) (s : State) : Completed s (effectOf i l s).complete := by
  obtain ⟨-, hstatus, -⟩ := effectOf_frame i l s
  constructor <;> simp [hstatus, Status.completed]

theorem sameControl_effectOf (i : Instr) (l : Latch) (s : State) : SameControl s (effectOf i l s).complete := by
  obtain ⟨hparams, -, hier, hcmd, hbase, hw, hh, -, hscript, hturns, hresponse, hdraws⟩ := effectOf_frame i l s
  constructor <;> assumption

/-! ### The bytes of the image (R123, R126) -/

/-- Every byte of the image after a convolution, interior or border. -/
theorem read_convolve_pixel {s : State} (hwf : s.imem.wf = true) {l : Latch} {f : Format} {x y c : Nat}
    (hx : x < l.imgW.toNat) (hc : c < bpp f) :
    (convolve f l s).imem.read (l.pix f x y c) =
      if l.interior x y then clampRound (convSum l f s.kmem x y c) l.kdiv.toNat else s.imem.read (l.pix f x y c) := by
  rw [convolve_imem]
  split_ifs with hi
  · exact read_convCells_interior hwf s.kmem hi hc
  · refine read_convCells_frame s.imem s.kmem fun x' y' c' hi' hc' heq => hi ?_
    have hxy := interior_iff.mp hi'
    obtain ⟨rfl, rfl, -⟩ := pix_inj hx (by omega) hc hc' heq
    exact hi'

/-- Without an interior pixel a convolution writes nothing (R126). -/
theorem convolve_eq_self {l : Latch} (h : l.imgW.toNat ≤ 2 * l.half ∨ l.imgH.toNat ≤ 2 * l.half) (f : Format)
    (s : State) : convolve f l s = s := by
  have hnone : convCells l f s.kmem = [] := List.eq_nil_iff_forall_not_mem.mpr fun cell hcell => by
    obtain ⟨x, y, c, hi, -⟩ := mem_convCells.mp hcell
    have hxy := interior_iff.mp hi
    omega
  rw [convolve, hnone, writeCells_nil]

section
variable {p : Instr × Format} (hp : p ∈ [(Instr.convG, Format.gray), (Instr.convC, Format.color)])
include hp

theorem effectOf_conv (l : Latch) (s : State) : effectOf p.1 l s = convolve p.2 l s := by
  obtain rfl | rfl : p = (.convG, .gray) ∨ p = (.convC, .color) := by simpa using hp
  · rfl
  · rfl

theorem exec_conv {s : State} {l : Latch} (hbusy : s.engine = .busy l) :
    exec p.1 s = .next (convolve p.2 l s).complete := by
  rw [exec_busy hbusy, effectOf_conv hp]

/-- `read_convolve_pixel` at the completion of the command. -/
theorem read_exec_conv {s t : State} {l : Latch} (hbusy : s.engine = .busy l) (hwf : s.imem.wf = true)
    (hexec : exec p.1 s = .next t) {x y c : Nat} (hx : x < l.imgW.toNat) (hc : c < bpp p.2) :
    t.imem.read (l.pix p.2 x y c) =
      if l.interior x y then clampRound (convSum l p.2 s.kmem x y c) l.kdiv.toNat
      else s.imem.read (l.pix p.2 x y c) := by
  obtain rfl : (convolve p.2 l s).complete = t := Host.Outcome.next.inj ((exec_conv hp hbusy).symm.trans hexec)
  rw [complete_imem, read_convolve_pixel hwf hx hc]

end

/-! ### The window (R121, R123) -/

/-- With an odd side the window of an interior pixel lies in the image. -/
theorem window_mem_image {l : Latch} (hodd : l.ksize.toNat % 2 = 1) {x y r q : Nat} (hi : l.interior x y = true)
    (hr : r < l.ksize.toNat) (hq : q < l.ksize.toNat) :
    l.half ≤ x + q ∧ x + q - l.half < l.imgW.toNat ∧ l.half ≤ y + r ∧ y + r - l.half < l.imgH.toNat := by
  have hxy := interior_iff.mp hi
  have hside : l.ksize.toNat = 2 * l.half + 1 := by unfold Latch.half; omega
  omega

theorem interior_withSnapshot (l : Latch) (m : Memory) (x y : Nat) :
    (l.withSnapshot m).interior x y = l.interior x y := rfl

/-- The sum of one channel reads no other channel of the snapshot (R125). -/
theorem convSum_eq_of_channel {l : Latch} {f : Format} {m : Memory} {c : Nat} (hodd : l.ksize.toNat % 2 = 1)
    (h : ∀ x y, x < l.imgW.toNat → y < l.imgH.toNat → (l.withSnapshot m).p0 f x y c = l.p0 f x y c)
    (kmem : List Half) {x y : Nat} (hi : l.interior x y = true) :
    convSum (l.withSnapshot m) f kmem x y c = convSum l f kmem x y c := by
  rw [convSum_eq, convSum_eq]
  refine Finset.sum_congr rfl fun r hr => Finset.sum_congr rfl fun q hq => ?_
  obtain ⟨-, hx, -, hy⟩ := window_mem_image hodd hi (Finset.mem_range.mp hr) (Finset.mem_range.mp hq)
  exact congrArg (kernelWeight kmem (r * l.ksize.toNat + q) * sample ·) (h _ _ hx hy)

/-! ### The size of the sum (R121) -/

theorem abs_kernelWeight_le (kmem : List Half) (i : Nat) : |kernelWeight kmem i| ≤ 32768 :=
  abs_le.mpr ⟨BitVec.le_toInt _, (BitVec.toInt_lt).le⟩

theorem abs_sample_le (b : Byte) : |sample b| ≤ 255 := by
  obtain ⟨hlow, hhigh⟩ := sample_bounds b
  rwa [abs_of_nonneg hlow]

theorem abs_sum_range_le {g : Nat → Int} {b : Int} (h : ∀ i, |g i| ≤ b) (n : Nat) :
    |∑ i ∈ Finset.range n, g i| ≤ n * b :=
  calc |∑ i ∈ Finset.range n, g i| ≤ ∑ i ∈ Finset.range n, |g i| := Finset.abs_sum_le_sum_abs _ _
    _ ≤ (Finset.range n).card • b := Finset.sum_le_card_nsmul _ _ _ fun i _ => h i
    _ = n * b := by simp

/-- At most 32768 times 255 from each of the entries of the window. -/
theorem abs_convSum_le (l : Latch) (f : Format) (kmem : List Half) (x y c : Nat) :
    |convSum l f kmem x y c| ≤ l.ksize.toNat * l.ksize.toNat * (32768 * 255) := by
  have hentry (i : Nat) (b : Byte) : |kernelWeight kmem i * sample b| ≤ 32768 * 255 := by
    rw [abs_mul]
    exact mul_le_mul (abs_kernelWeight_le kmem i) (abs_sample_le b) (abs_nonneg _) (by norm_num)
  rw [convSum_eq, mul_assoc]
  exact abs_sum_range_le (fun r => abs_sum_range_le (fun q => hentry _ _) _) _

end Sys2Proof.Machine
end

section
/-! Settled: the convolution family (spec/40_convolution.md). -/

namespace Sys2Proof.Machine

/-- Settles O22: the bytes of the image are `read_convolve_pixel` (R123), the rest of memory is the frame of
`convCells`, and `window_mem_image` keeps the window in the image. -/
theorem convolutionWritesTheInterior : Obligations.ConvolutionWritesTheInterior := by
  intro p hp s l hbusy hwf hsnapshot
  have heffect := effectOf_conv hp l s
  have hexec := exec_conv hp hbusy
  refine ⟨(convolve p.2 l s).complete, hexec, heffect ▸ completed_effectOf p.1 l s,
    heffect ▸ sameControl_effectOf p.1 l s, ⟨rfl, rfl, rfl⟩, ⟨rfl, rfl, rfl⟩, rfl, rfl,
    fun x y c hx hx' hy hy' hc => ?interior, fun x y c hx _ hc hborder => ?border, fun a ha => ?frame,
    fun hodd x y r q hx hx' hy hy' hr hq => ?window⟩
  case interior =>
    rw [read_exec_conv hp hbusy hwf hexec (by omega) hc, if_pos (interior_iff.mpr ⟨hx, hx', hy, hy'⟩), convSum_eq]
  case border =>
    rw [read_exec_conv hp hbusy hwf hexec hx hc, if_neg (mt interior_iff.mp hborder), Latch.p0, hsnapshot]
  case frame =>
    refine read_convCells_frame s.imem s.kmem fun x y c hi hc => ?_
    obtain ⟨hx, hx', hy, hy'⟩ := interior_iff.mp hi
    exact ha x y c hx hx' hy hy' hc
  case window =>
    exact window_mem_image hodd (interior_iff.mpr ⟨hx, hx', hy, hy'⟩) hr hq

/-- Settles O23: the 4-bit side is at most 15 and KDIV has 16 bits, so both bounds follow from `abs_convSum_le`. -/
theorem convolutionSumFitsTheAccumulator : Obligations.ConvolutionSumFitsTheAccumulator := by
  intro l f kmem x y c
  have hsum := abs_convSum_le l f kmem x y c
  have hside : l.ksize.toNat * l.ksize.toNat ≤ 15 * 15 := by
    have := l.ksize.isLt
    exact Nat.mul_le_mul (by omega) (by omega)
  have hbound : |convSum l f kmem x y c| ≤ 15 * 15 * (32768 * 255) :=
    hsum.trans (mul_le_mul_of_nonneg_right (by exact_mod_cast hside) (by norm_num))
  have hdiv := l.kdiv.isLt
  refine ⟨hsum, by omega, ?_⟩
  rw [abs_le] at hbound
  rw [abs_lt]
  omega

/-- Settles O24: a convolution without an interior pixel writes nothing (`convolve_eq_self`), so completion alone is
left (R126). -/
theorem convolutionWithoutInteriorChangesNothing : Obligations.ConvolutionWithoutInteriorChangesNothing := by
  intro p hp s l hbusy hsmall
  rw [exec_conv hp hbusy, convolve_eq_self hsmall]
  rfl

/-- Settles O25: an interior byte is a sum over its own channel (`convSum_eq_of_channel`), and a border byte is the one
both runs start with. -/
theorem convolutionChannelsAreIndependent : Obligations.ConvolutionChannelsAreIndependent := by
  intro s t t' l m c hbusy hwf hodd hc hagree hexec hexec' x y hx hy
  have hconvC : (Instr.convC, Format.color) ∈ [(Instr.convG, Format.gray), (Instr.convC, Format.color)] := by simp
  have hread := read_exec_conv hconvC hbusy hwf hexec (y := y) hx hc
  have hread' :=
    read_exec_conv hconvC (s := { s with engine := .busy (l.withSnapshot m) }) rfl hwf hexec' (y := y) hx hc
  refine hread'.trans (Eq.trans ?_ hread.symm)
  rw [interior_withSnapshot]
  split_ifs with hi
  · exact congrArg (clampRound · l.kdiv.toNat) (convSum_eq_of_channel hodd hagree s.kmem hi)
  · rfl

/-- Settles O26: each command of the catalog loads one table (R130, R131), and `kmemLoad_getD` gives the entries it
loads and keeps (R132). -/
theorem loadkWritesTheCatalogKernel : Obligations.LoadkWritesTheCatalogKernel := by
  intro s l i ws d hbusy hcatalog hlength
  obtain ⟨k, heffect, rfl, rfl⟩ :
      ∃ k : KernelTable, effectOf i l s = loadKernel k s ∧ k.weights.toList = ws ∧ k.divisor = d := by
    obtain ⟨rfl, rfl, rfl⟩ | ⟨rfl, rfl, rfl⟩ | ⟨rfl, rfl, rfl⟩ | ⟨rfl, rfl, rfl⟩ | ⟨rfl, rfl, rfl⟩ := hcatalog
    · exact ⟨boxTable, rfl, rfl, rfl⟩
    · exact ⟨gaussTable, rfl, rfl, rfl⟩
    all_goals exact ⟨_, rfl, rfl, rfl⟩
  have hnine : k.weights.toList.length = 9 := Vector.length_toList
  refine ⟨(loadKernel k s).complete, heffect ▸ exec_busy hbusy i, heffect ▸ completed_effectOf i l s,
    heffect ▸ sameControl_effectOf i l s, ⟨rfl, rfl, rfl⟩, rfl, rfl, fun _ => rfl, rfl, rfl,
    kmemLoad_length _ _, fun j => ?_⟩
  rw [complete_kmem, loadKernel_kmem, kmemLoad_getD _ _ (by omega), hnine]

end Sys2Proof.Machine
end

section
/-! SUPPORT. The histogram family at completion (R160 to R192): its commands by pixel format, the count of each bin, the
remap table as one rounded quotient, and which pixels a table leaves as they are. -/

namespace Sys2Proof.Machine

/-! ### The commands by pixel format (R95) -/

/-- HISTO of this format. -/
def histoOf : Format → Instr
  | .gray => .histoG
  | .color => .histoC

/-- LUTAP of this format. -/
def lutapOf : Format → Instr
  | .gray => .lutapG
  | .color => .lutapC

/-- EQUAL of this format. -/
def equalOf : Format → Instr
  | .gray => .equalG
  | .color => .equalC

@[simp] theorem effectOf_histoOf (f : Format) (l : Latch) (s : State) :
    effectOf (histoOf f) l s = histogram f l s := by
  cases f <;> rfl

@[simp] theorem effectOf_lutapOf (f : Format) (l : Latch) (s : State) :
    effectOf (lutapOf f) l s = applyTable f l s := by
  cases f <;> rfl

@[simp] theorem effectOf_equalOf (f : Format) (l : Latch) (s : State) :
    effectOf (equalOf f) l s = equalize f l s := by
  cases f <;> rfl

section
variable {s : State} {l : Latch} (hbusy : s.engine = .busy l)
include hbusy

theorem exec_histoOf (f : Format) : exec (histoOf f) s = .next (histogram f l s).complete := by
  rw [exec_busy hbusy, effectOf_histoOf]

theorem exec_lutapOf (f : Format) : exec (lutapOf f) s = .next (applyTable f l s).complete := by
  rw [exec_busy hbusy, effectOf_lutapOf]

theorem exec_equalOf (f : Format) : exec (equalOf f) s = .next (equalize f l s).complete := by
  rw [exec_busy hbusy, effectOf_equalOf]

/-- A completion has one next state. -/
theorem eq_complete_of_exec {i : Instr} {t : State} (hexec : exec i s = .next t) : t = (effectOf i l s).complete :=
  Host.Outcome.next.inj (hexec.symm.trans (exec_busy hbusy i))

end

/-! ### Issue and completion in turn (R211 to R214) -/

/-- The state after an accepted command has completed. -/
def State.perform (s : State) (i : Instr) : State := (effectOf i (latchOf i s) (s.accept i)).complete

@[simp] theorem perform_engine (s : State) (i : Instr) : (s.perform i).engine = .idle := rfl

theorem exec_accept (s : State) (i : Instr) : exec i (s.accept i) = .next (s.perform i) := exec_busy rfl i

theorem exec_of_check_none {s : State} {i : Instr} (hidle : s.engine = .idle) (hcheck : check i s = .none) :
    exec i s = .next (s.accept i) := by
  rw [exec_idle hidle, State.issue, hcheck]

theorem check_histoOf (f : Format) (s : State) : check (histoOf f) s = boundsCheck f s := by
  cases f <;> rfl

theorem check_lutapOf (f : Format) (s : State) : check (lutapOf f) s = boundsCheck f s := by
  cases f <;> rfl

theorem check_equalOf (f : Format) (s : State) : check (equalOf f) s = boundsCheck f s := by
  cases f <;> rfl

/-- No command touches the image registers, so the next one meets the same bounds check. -/
theorem boundsCheck_perform (f : Format) (s : State) (i : Instr) : boundsCheck f (s.perform i) = boundsCheck f s := by
  obtain ⟨hparams, -, -, -, hbase, hw, hh, -⟩ := effectOf_frame i (latchOf i s) (s.accept i)
  simp [boundsCheck, State.perform, hparams, hbase, hw, hh]

/-- HISTO and EQLUT touch neither the image nor its registers, so LUTAP latches what EQUAL would have latched. -/
theorem perform_equalOf (f : Format) (s : State) :
    s.perform (equalOf f) = ((s.perform (histoOf f)).perform .eqlut).perform (lutapOf f) := by
  cases f <;> rfl

/-! ### The count of each bin (R160, R161) -/

theorem accumulate_card (f : Format) (l : Latch) (v : Fin 256) :
    ((accumulate f l)[v]).toNat = ((Finset.range l.imgW.toNat ×ˢ Finset.range l.imgH.toNat).filter
      fun p => (pixelKey l f p).toNat = v.val).card := by
  rw [accumulate_get, count_pixels]
  simp only [BitVec.toNat_eq, BitVec.toNat_ofFin]

/-- Every pixel counts in one bin. -/
theorem accumulate_sum (f : Format) (l : Latch) :
    ∑ v : Fin 256, ((accumulate f l)[v]).toNat = l.imgW.toNat * l.imgH.toNat := by
  have hfibers := Finset.card_eq_sum_card_fiberwise (f := fun p => (pixelKey l f p).toFin)
    (s := Finset.range l.imgW.toNat ×ˢ Finset.range l.imgH.toNat) (t := Finset.univ) fun _ _ => Finset.mem_univ _
  simp only [Fin.ext_iff, BitVec.val_toFin] at hfibers
  simp only [accumulate_card, ← hfibers, Finset.card_product, Finset.card_range]

/-! ### The cumulative sums (R170, R171) -/

section
variable {h : Vector Word 256}

/-- With nothing below a bin, the sum up to it is its own count. -/
theorem cdf_eq_bin {i : Fin 256} (hbelow : ∀ j < i, h[j] = 0) : cdf h i.val = (h[i]).toNat := by
  rw [cdf_eq_sum_filter]
  refine Finset.sum_eq_single i (fun j hj hne => ?_) (by simp)
  have hlt : j < i := lt_of_le_of_ne (by simpa using hj) hne
  simp [hbelow j hlt]

/-- With nothing above a bin, the sum up to it is the total. -/
theorem cdf_eq_total {i : Fin 256} (habove : ∀ j > i, h[j] = 0) : cdf h i.val = histTotal h := by
  rw [cdf_eq_sum_filter, histTotal_eq_sum]
  refine Finset.sum_filter_of_ne fun j _ hne => not_lt.mp fun hlt => hne ?_
  simp [habove j hlt]

/-- With nothing below a bin, the sum up to it is at most cdf_min. -/
theorem cdf_le_cdfMin {i : Fin 256} (hbelow : ∀ j < i, h[j] = 0) : cdf h i.val ≤ cdfMin h := by
  by_cases hi : h[i] = 0
  · simp [cdf_eq_bin hbelow, hi]
  · exact (cdfMin_of_lowest i hi hbelow).ge

/-- A sum that is not 0 has reached the lowest occupied bin. -/
theorem cdfMin_le_cdf {i : Fin 256} (hne : cdf h i.val ≠ 0) : cdfMin h ≤ cdf h i.val := by
  cases hm : firstOccupied h with
  | none => simp [cdfMin_of_empty (firstOccupied_none hm)]
  | some m =>
    obtain ⟨hlt, hocc, hbefore⟩ := firstOccupied_spec hm
    rw [cdfMin_of_lowest ⟨m, hlt⟩ hocc hbefore]
    refine cdf_mono h (not_lt.mp fun him => hne ?_)
    rw [cdf_eq_bin fun j hj => hbefore j (lt_trans hj him), hbefore i him]
    rfl

/-- The hypothesis of R171 on `mn`, by cases of the histogram, says that it is cdf_min. -/
theorem cdfMin_eq_of_lowest_sum {mn : Nat} (hmn : ((∀ j : Fin 256, h[j] = 0) ∧ mn = 0) ∨
    ∃ m : Fin 256, h[m] ≠ 0 ∧ (∀ j < m, h[j] = 0) ∧
      mn = ∑ j ∈ Finset.univ.filter (fun j : Fin 256 => j ≤ m), (h[j]).toNat) : cdfMin h = mn := by
  obtain ⟨hempty, rfl⟩ | ⟨m, hocc, hbelow, rfl⟩ := hmn
  · exact cdfMin_of_empty hempty
  · rw [cdfMin_of_lowest m hocc hbelow, cdf_eq_sum_filter]

/-! ### The remap table as one quotient (R172) -/

theorem cdfMin_lt_total (hd : degenerate h = false) : cdfMin h < histTotal h := by
  have hne : histTotal h ≠ cdfMin h := fun heq => by simp [(degenerate_iff h).mpr heq] at hd
  exact lt_of_le_of_ne (cdfMin_le_total h) hne.symm

/-- The quotient of R172, its differences truncated at 0. -/
def remapQuotient (h : Vector Word 256) (i : Nat) : Int :=
  rnd (((cdf h i - cdfMin h : Nat) : Int) * 255) (histTotal h - cdfMin h : Nat)

theorem remapQuotient_eq_zero {i : Nat} (hd : degenerate h = false) (hle : cdf h i ≤ cdfMin h) :
    remapQuotient h i = 0 := by
  have hlt := cdfMin_lt_total hd
  rw [remapQuotient, Nat.sub_eq_zero_of_le hle]
  simpa using rnd_mul (q := 0) (d := (histTotal h - cdfMin h : Nat)) (by omega)

theorem remapQuotient_eq_255 {i : Nat} (hd : degenerate h = false) (heq : cdf h i = histTotal h) :
    remapQuotient h i = 255 := by
  have hlt := cdfMin_lt_total hd
  rw [remapQuotient, heq, mul_comm]
  exact rnd_mul (by omega)

theorem remapQuotient_mono (hd : degenerate h = false) {i j : Nat} (hij : i ≤ j) :
    remapQuotient h i ≤ remapQuotient h j := by
  have hlt := cdfMin_lt_total hd
  have hcdf := cdf_mono h hij
  exact rnd_mono (by omega) (by omega)

theorem remapQuotient_bounds (hd : degenerate h = false) (i : Fin 256) :
    0 ≤ remapQuotient h i.val ∧ remapQuotient h i.val ≤ 255 := by
  have hlt := cdfMin_lt_total hd
  constructor
  · rw [remapQuotient, rnd]
    exact Int.ediv_nonneg (by omega) (by omega)
  · rw [← remapQuotient_eq_255 hd (i := 255) rfl]
    exact remapQuotient_mono hd (by omega)

/-- Truncating the differences covers both lines of R172: a sum that is not 0 is at least cdf_min. -/
theorem remapQuotient_eq (hd : degenerate h = false) (i : Fin 256) :
    remapQuotient h i.val = if cdf h i.val = 0 then 0
      else rnd (((cdf h i.val : Int) - (cdfMin h : Int)) * 255) ((histTotal h : Int) - (cdfMin h : Int)) := by
  split_ifs with h0
  · exact remapQuotient_eq_zero hd (by omega)
  · rw [remapQuotient, Nat.cast_sub (cdfMin_le_cdf h0), Nat.cast_sub (cdfMin_le_total h)]

/-- The quotient fits a byte, so the table holds it exactly. -/
theorem remapTable_toNat (hd : degenerate h = false) (i : Fin 256) :
    (((remapTable h)[i]).toNat : Int) = remapQuotient h i.val := by
  obtain ⟨hlow, hhigh⟩ := remapQuotient_bounds hd i
  rw [remapTable_get hd, ← toNat_ofInt8 hlow hhigh, remapQuotient_eq hd]
  split_ifs <;> rfl

theorem remapTable_toNat_degenerate (hd : degenerate h = true) (i : Fin 256) :
    ((remapTable h)[i]).toNat = i.val := by
  simp [remapTable_degenerate hd i]

theorem remapTable_mono {i j : Fin 256} (hij : i ≤ j) :
    ((remapTable h)[i]).toNat ≤ ((remapTable h)[j]).toNat := by
  cases hd : degenerate h with
  | true =>
    rw [remapTable_toNat_degenerate hd, remapTable_toNat_degenerate hd]
    exact hij
  | false =>
    have hmono := remapQuotient_mono hd (i := i.val) (j := j.val) hij
    rw [← remapTable_toNat hd, ← remapTable_toNat hd] at hmono
    exact_mod_cast hmono

end

/-! ### The histogram of a ramp (R174) -/

theorem cdf_of_ramp {h : Vector Word 256} (hramp : ∀ j : Fin 256, h[j] = 1) (i : Fin 256) :
    cdf h i.val = i.val + 1 := by
  have hIic : Finset.univ.filter (fun j : Fin 256 => j ≤ i) = Finset.Iic i := by ext j; simp
  rw [cdf_eq_sum_filter, hIic, Finset.sum_congr rfl fun j _ => congrArg BitVec.toNat (hramp j)]
  simp

/-! ### What a table leaves as it is (R183, R192) -/

/-- A quotient less than half a unit from a byte rounds to that byte. -/
theorem clampRound_near {b : Byte} {n d : Int} (hlow : -d ≤ 2 * (n - sample b * d))
    (hhigh : 2 * (n - sample b * d) < d) : clampRound n d = b := by
  have hround : rnd n d = sample b :=
    rnd_unique (by omega) (by linarith [mul_comm (sample b) d]) (by linarith [mul_comm (sample b) d])
  obtain ⟨h0, h255⟩ := sample_bounds b
  have hbyte := clampRound_toNat n d
  rw [hround, clamp8_of_mem h0 h255] at hbyte
  exact BitVec.eq_of_toNat_eq (Int.ofNat.inj hbyte)

theorem lutAt_identity {lut : Vector Byte 256} (hid : ∀ i : Fin 256, (lut[i]).toNat = i.val) (b : Byte) :
    lutAt lut b = b := BitVec.eq_of_toNat_eq (hid b.toFin)

theorem lumaKey_gray (v : Byte) : lumaKey v v v = v :=
  clampRound_near (by unfold lumaNum; omega) (by unfold lumaNum; omega)

theorem uNum_gray (v : Byte) : uNum v v v = sample v := by unfold uNum; ring

theorem vNum_gray (v : Byte) : vNum v v v = 0 := by unfold vNum; ring

/-- V of a gray value is 0 and U is too small to move a channel by half a unit. -/
theorem project_gray {lut : Vector Byte 256} (hid : ∀ i : Fin 256, (lut[i]).toNat = i.val) (v : Byte) :
    project lut ⟨v, v, v⟩ = ⟨v, v, v⟩ := by
  obtain ⟨h0, h255⟩ := sample_bounds v
  have hb : clampRound (sample v * projDen + 203211 * sample v) projDen = v :=
    clampRound_near (by unfold projDen; omega) (by unfold projDen; omega)
  have hg : clampRound (sample v * projDen - 39465 * sample v - 58060 * 0) projDen = v :=
    clampRound_near (by unfold projDen; omega) (by unfold projDen; omega)
  have hr : clampRound (sample v * projDen + 113983 * 0) projDen = v :=
    clampRound_near (by unfold projDen; omega) (by unfold projDen; omega)
  rw [project, lumaKey_gray, lutAt_identity hid, uNum_gray, vNum_gray, backward, hb, hg, hr]

theorem bgr_channel (l : Latch) (x y : Nat) {c : Nat} (hc : c < 3) :
    (l.bgr x y).channel c = l.p0 .color x y c := by
  obtain rfl | rfl | rfl : c = 0 ∨ c = 1 ∨ c = 2 := by omega
  all_goals rfl

/-- Writing what memory already holds changes nothing. -/
theorem writeCells_eq_self {m : Memory} (hm : m.wf = true) {cells : List Host.Cell}
    (hsame : ∀ cell ∈ cells, m.read cell.1 = cell.2) : m.writeCells cells = m := by
  induction cells with
  | nil => rfl
  | cons cell rest ih =>
    have hwrite : m.write cell.1 cell.2 = m := eq_of_read (wf_write hm _ _) hm fun a => by
      by_cases ha : a = cell.1
      · rw [ha, read_write_self hm, hsame cell (by simp)]
      · exact read_write_ne m _ ha
    rw [writeCells_cons, hwrite]
    exact ih fun c hc => hsame c (by simp [hc])

end Sys2Proof.Machine
end

section
/-! Settled: the histogram, remap and projection family (spec/41_histogram.md). -/

namespace Sys2Proof.Machine

/-- Settles O27: HISTO counts by `pixelKey` (R160), and `accumulate_card` gives the count of each bin. -/
theorem histogramCountsKeys : Obligations.HistogramCountsKeys := by
  intro s l i key hbusy hkey
  obtain ⟨f, rfl, rfl⟩ : ∃ f, i = histoOf f ∧ key = pixelKey l f := by
    obtain ⟨rfl, rfl⟩ | ⟨rfl, rfl⟩ := hkey
    · exact ⟨.gray, rfl, rfl⟩
    · exact ⟨.color, rfl, rfl⟩
  have heffect := effectOf_histoOf f l s
  exact ⟨(histogram f l s).complete, exec_histoOf hbusy f, heffect ▸ completed_effectOf _ l s,
    heffect ▸ sameControl_effectOf _ l s, ⟨rfl, rfl, rfl⟩, ⟨rfl, rfl, rfl⟩, rfl, fun _ => rfl, accumulate_card f l⟩

/-- Settles O28: both commands leave the accumulated bins in HIST, which add up by `accumulate_sum` (R161). -/
theorem histogramTotalIsThePixelCount : Obligations.HistogramTotalIsThePixelCount := by
  intro s t l i hbusy hi hexec
  obtain ⟨f, hhist⟩ : ∃ f, (effectOf i l s).hist = accumulate f l := by
    obtain rfl | rfl | rfl | rfl : i = .histoG ∨ i = .histoC ∨ i = .equalG ∨ i = .equalC := by simpa using hi
    · exact ⟨.gray, rfl⟩
    · exact ⟨.color, rfl⟩
    · exact ⟨.gray, rfl⟩
    · exact ⟨.color, rfl⟩
  rw [eq_complete_of_exec hbusy hexec, complete_hist, hhist]
  exact accumulate_sum f l

/-- Settles O29: the sums of the statement are `histTotal`, `cdfMin` and `cdf`; the total fits EQ_N (R170), and
`remapTable_toNat` gives the entries. -/
theorem eqlutBuildsTheRemapTable : Obligations.EqlutBuildsTheRemapTable := by
  intro s l mn hbusy htotal hmn
  have hmin := cdfMin_le_total s.hist
  obtain rfl := cdfMin_eq_of_lowest_sum hmn
  simp only [← histTotal_eq_sum, ← cdf_eq_sum_filter] at htotal ⊢
  refine ⟨(buildTable s).complete, exec_busy hbusy .eqlut, completed_effectOf .eqlut l s,
    sameControl_effectOf .eqlut l s, ⟨rfl, rfl, rfl⟩, rfl, fun _ => rfl, ?eqN, ?eqCdfMin, degenerate_iff s.hist,
    fun i => ?lut⟩
  case eqN => rw [complete_eqN, buildTable_eqN, BitVec.toNat_ofNat, Nat.mod_eq_of_lt htotal]
  case eqCdfMin => rw [complete_eqCdfMin, buildTable_eqCdfMin, BitVec.toNat_ofNat, Nat.mod_eq_of_lt (by omega)]
  case lut =>
    rw [complete_lut, buildTable_lut]
    cases hd : degenerate s.hist with
    | true => rw [remapTable_toNat_degenerate hd, if_pos ((degenerate_iff _).mp hd)]
    | false => rw [remapTable_toNat hd, remapQuotient_eq hd, if_neg (cdfMin_lt_total hd).ne']

/-- Settles O30: the quotient rises with the cumulative sum; it is 0 while that is at most cdf_min, and 255 once it is the
total (R174). -/
theorem remapTableRisesFromZeroTo255 : Obligations.RemapTableRisesFromZeroTo255 := by
  intro s t l hbusy hexec
  obtain rfl := eq_complete_of_exec hbusy hexec
  refine ⟨fun i j => remapTable_mono, fun hd i => ⟨fun hbelow => ?zero, fun habove => ?top⟩⟩
  case zero =>
    have hentry := remapTable_toNat hd i
    rw [remapQuotient_eq_zero hd (cdf_le_cdfMin hbelow)] at hentry
    exact BitVec.eq_of_toNat_eq (by exact_mod_cast hentry)
  case top =>
    have hentry := remapTable_toNat hd i
    rw [remapQuotient_eq_255 hd (cdf_eq_total habove)] at hentry
    exact BitVec.eq_of_toNat_eq (by exact_mod_cast hentry)

/-- Settles O31: cdf[i] is i + 1 (`cdf_of_ramp`), so cdf_min is 1, N is 256, and entry i is the quotient of i * 255 and
255 (R174). -/
theorem rampGivesTheIdentityTable : Obligations.RampGivesTheIdentityTable := by
  intro s l hbusy hramp
  have hmin : cdfMin s.hist = 1 := by
    rw [cdfMin_of_lowest 0 (by simp [hramp]) (by simp)]
    exact cdf_of_ramp hramp 0
  have htotal : histTotal s.hist = 256 := cdf_of_ramp hramp 255
  have hd : degenerate s.hist = false := by simp [degenerate, hmin, htotal]
  refine ⟨(buildTable s).complete, exec_busy hbusy .eqlut, hd, fun i => ?_⟩
  have hentry := remapTable_toNat hd i
  rw [remapQuotient, cdf_of_ramp hramp, hmin, htotal, Nat.add_sub_cancel] at hentry
  exact_mod_cast hentry.trans (rnd_mul (by norm_num))

/-- Settles O32: `read_lutCells_pixel` gives the bytes of the image (R185), `read_lutCells_frame` the others. -/
theorem lutapGrayMapsEverySample : Obligations.LutapGrayMapsEverySample := by
  intro s l hbusy hwf
  refine ⟨(applyTable .gray l s).complete, exec_busy hbusy .lutapG, completed_effectOf .lutapG l s,
    sameControl_effectOf .lutapG l s, ⟨rfl, rfl, rfl⟩, ⟨rfl, rfl, rfl⟩, rfl, rfl,
    fun x y hx hy => read_lutCells_pixel hwf s.lut hx hy (by decide),
    fun a ha => read_lutCells_frame s.imem s.lut fun x y c hx hy hc => ?_⟩
  obtain rfl : c = 0 := Nat.lt_one_iff.mp hc
  exact ha x y hx hy

/-- Settles O33: `read_lutCells_pixel` gives each channel of the projection, and `projDen` is 10^10 (R180 to R183). -/
theorem lutapColorProjectsEveryPixel : Obligations.LutapColorProjectsEveryPixel := by
  intro s l hbusy hwf
  refine ⟨(applyTable .color l s).complete, exec_busy hbusy .lutapC, completed_effectOf .lutapC l s,
    sameControl_effectOf .lutapC l s, ⟨rfl, rfl, rfl⟩, ⟨rfl, rfl, rfl⟩, rfl, rfl, fun x y hx hy => ?_,
    fun a ha => read_lutCells_frame s.imem s.lut ha⟩
  rintro B G R Y U V rfl rfl rfl rfl rfl rfl
  have hden : (10 ^ 10 : Int) = projDen := by norm_num [projDen]
  have hchannel {c : Nat} (hc : c < bpp .color) := read_lutCells_pixel hwf s.lut hx hy hc
  rw [hden]
  exact ⟨hchannel (c := 0) (by decide), hchannel (c := 1) (by decide), hchannel (c := 2) (by decide)⟩

/-- Settles O34: every command passes its checks, since none touches the operand registers, and `perform_equalOf` compares
the ends (R190, R191). -/
theorem equalIsHistogramTableApply : Obligations.EqualIsHistogramTableApply := by
  intro p hp s hidle hfits
  obtain ⟨f, rfl⟩ : ∃ f, p = (equalOf f, histoOf f, lutapOf f, bpp f) := by
    obtain rfl | rfl : p = (.equalG, .histoG, .lutapG, 1) ∨ p = (.equalC, .histoC, .lutapC, 3) := by simpa using hp
    · exact ⟨.gray, rfl⟩
    · exact ⟨.color, rfl⟩
  have hbounds : boundsCheck f s = .none := if_neg (not_lt.mpr hfits)
  have hhisto : check (histoOf f) s = .none := (check_histoOf f s).trans hbounds
  have hlutap : check (lutapOf f) ((s.perform (histoOf f)).perform .eqlut) = .none := by
    rw [check_lutapOf, boundsCheck_perform, boundsCheck_perform, hbounds]
  have hequal : check (equalOf f) s = .none := (check_equalOf f s).trans hbounds
  exact ⟨_, _, _, _, _, _, s.accept (equalOf f), exec_of_check_none hidle hhisto, exec_accept _ _,
    exec_of_check_none (perform_engine _ _) rfl, exec_accept _ _, exec_of_check_none (perform_engine _ _) hlutap,
    exec_accept _ _, exec_of_check_none hidle hequal, rfl, perform_equalOf f s ▸ exec_accept s (equalOf f)⟩

/-- Settles O35: EQUAL's writes are those of HISTO, EQLUT and LUTAP on the one LATCH, `equalize` by definition (R190,
R191). -/
theorem equalUsesOneSnapshot : Obligations.EqualUsesOneSnapshot := by
  intro p hp s l hbusy
  obtain ⟨f, rfl⟩ : ∃ f, p = (equalOf f, histoOf f, lutapOf f, f) := by
    obtain rfl | rfl : p = (.equalG, .histoG, .lutapG, .gray) ∨ p = (.equalC, .histoC, .lutapC, .color) := by
      simpa using hp
    · exact ⟨.gray, rfl⟩
    · exact ⟨.color, rfl⟩
  have heffect := effectOf_equalOf f l s
  exact ⟨(equalize f l s).complete, (histogram f l s).complete, _, _, exec_equalOf hbusy f,
    heffect ▸ completed_effectOf _ l s, heffect ▸ sameControl_effectOf _ l s, ⟨rfl, rfl, rfl⟩, exec_histoOf hbusy f,
    rfl, exec_busy (s := { s with hist := accumulate f l }) hbusy .eqlut, rfl, ⟨rfl, rfl, rfl⟩,
    exec_lutapOf (s := { s with lut := remapTable (accumulate f l) }) hbusy f, rfl,
    fun b hb => read_lutCells_frame s.imem _ hb⟩

/-- Settles O36: the luma of a gray value is itself, V is 0, and U stays below half a unit (`project_gray`, R183). -/
theorem grayPixelIsFixedByTheProjection : Obligations.GrayPixelIsFixedByTheProjection :=
  fun _ v hid => project_gray hid v

/-- Settles O37: the table of a degenerate image is the identity (R172), so `project_gray` has EQUAL write the bytes that
memory holds (R192). -/
theorem degenerateGrayValuedImageIsUnchanged : Obligations.DegenerateGrayValuedImageIsUnchanged := by
  intro s t l hbusy hwf hsnapshot hgray hexec hdegen
  obtain rfl := eq_complete_of_exec hbusy hexec
  have hid := remapTable_toNat_degenerate (h := accumulate .color l) hdegen
  refine writeCells_eq_self hwf fun cell hcell => ?_
  obtain ⟨x, y, c, hx, hy, hc, rfl⟩ := mem_lutCells.mp hcell
  obtain ⟨hbg, hgr⟩ := hgray x y hx hy
  have hpixel : l.bgr x y = ⟨l.p0 .color x y 0, l.p0 .color x y 0, l.p0 .color x y 0⟩ := by
    rw [Latch.bgr, ← hgr, ← hbg]
  have hfixed := project_gray hid (l.p0 .color x y 0)
  rw [← hpixel] at hfixed
  calc s.imem.read (l.pix .color x y c) = l.p0 .color x y c := by rw [Latch.p0, hsnapshot]
    _ = (l.bgr x y).channel c := (bgr_channel l x y hc).symm
    _ = lutOut (remapTable (accumulate .color l)) l .color x y c := by rw [lutOut, hfixed]

end Sys2Proof.Machine
end

section
/-! SUPPORT. The life of a command (spec/42_control.md): the host's writes to CMD and CTRL, the word the model places, the
checks by pixel format, acceptance followed by completion, and what an abort writes. -/

namespace Sys2Proof.Machine

/-! ### The CMD write and its step (R211, R216) -/

theorem hostAccess_cmd (s : State) (w : Word) :
    hostAccess s ⟨s.params.regBase + 0x014, 4, .write w⟩ = writeCmd { s with response := .written } w :=
  hostAccess_write_plain s (r := .cmd) rfl w

theorem writeCmd_busy {s : State} {l : Latch} (h : s.engine = .busy l) (w : Word) : writeCmd s w = .next s.drop := by
  simp [writeCmd, h]

theorem writeCmd_idle_ok {s : State} {w : Word} {i : Instr} (h : s.engine = .idle) (hd : decode w = .ok i) :
    writeCmd s w = exec i { s with cmd := w } := by
  simp [writeCmd, h, hd]

theorem hostStep_access {s : State} {a : HostAccess} {rest : List HostLine} (hs : s.script = .access a :: rest) :
    hostStep s = hostAccess { s with script := rest } a := by
  simp [hostStep, hs]

/-- Four bytes are one command word, with nothing after it (R90). -/
theorem decodeBytes_four (b0 b1 b2 b3 : Byte) :
    decodeBytes [b0, b1, b2, b3] = (decode (wordOfBytes b0 b1 b2 b3)).map (·, []) := by
  rw [decodeBytes]
  cases decode (wordOfBytes b0 b1 b2 b3) <;> rfl

/-- The four bytes of a table row's number are those of its low word (R64). -/
theorem decodeBytes_ofNat (v : Nat) : decodeBytes ((List.range 4).map fun k => BitVec.ofNat 8 (v / 2 ^ (8 * k))) =
    (decode (BitVec.ofNat 32 v)).map (·, []) := by
  rw [← wordOfBytes_ofNat v]
  exact decodeBytes_four _ _ _ _

theorem decode_of_decodeTableWord {nbits w : Nat} {i : Instr} (h : decodeTableWord nbits w = some i) :
    decode (BitVec.ofNat 32 (w % 2 ^ nbits)) = .ok i := by
  simp only [decodeTableWord, decodeBytes_ofNat, Option.ite_none_right_eq_some] at h
  obtain ⟨-, hmatch⟩ := h
  cases hd : decode (BitVec.ofNat 32 (w % 2 ^ nbits)) with
  | error e => simp [hd, Except.map] at hmatch
  | ok j => simpa [hd, Except.map] using hmatch

/-! ### The checks by pixel format (R237) -/

theorem imageFormat_eq_gray_iff (i : Instr) :
    imageFormat i = some .gray ↔ i ∈ [Instr.convG, .histoG, .lutapG, .equalG] := by
  cases i <;> decide

theorem imageFormat_eq_color_iff (i : Instr) :
    imageFormat i = some .color ↔ i ∈ [Instr.convC, .histoC, .lutapC, .equalC] := by
  cases i <;> decide

theorem imageFormat_eq_none_iff (i : Instr) : imageFormat i = none ↔
    i ∈ [Instr.nop, .eqlut, .loadkBox, .loadkGauss, .loadkSharpen, .loadkOutline, .loadkEmboss] := by
  cases i <;> decide

theorem imageBytes_gray (w h : Half) : imageBytes .gray w h = w.toNat * h.toNat := Nat.mul_one _

theorem imageBytes_color (w h : Half) : imageBytes .color w h = w.toNat * h.toNat * 3 := rfl

/-- CONV has an image, so a command without one meets neither check. -/
theorem check_of_no_image {i : Instr} (h : imageFormat i = none) (s : State) : check i s = .none := by
  refine (check_none_iff i s).mpr ⟨fun hc => ?_, fun f hf => ?_⟩
  · obtain ⟨f, hf⟩ := isConv_format hc
    cases h.symm.trans hf
  · cases h.symm.trans hf

/-! ### Acceptance, then completion (R212, R214) -/

theorem mover_ne_engine_of_idle {s : State} (h : s.engine = .idle) : mover s ≠ some .engine := by
  obtain hs | ⟨line, rest, hs⟩ := script_cases s <;> simp [mover, h, hs]

/-- Acceptance clears DONE alone, which completion sets. -/
theorem completed_perform (s : State) (i : Instr) : Completed s (s.perform i) := by
  obtain ⟨hidle, hdone, herr, hovr, hhaz, hcode⟩ := completed_effectOf i (latchOf i s) (s.accept i)
  exact ⟨hidle, hdone, herr, hovr, hhaz, hcode⟩

theorem sameControl_perform (s : State) (i : Instr) : SameControl s (s.perform i) := by
  obtain ⟨hparams, hier, hcmd, hbase, hw, hh, hscript, hturns, hresponse, hdraws⟩ :=
    sameControl_effectOf i (latchOf i s) (s.accept i)
  exact ⟨hparams, hier, hcmd, hbase, hw, hh, hscript, hturns, hresponse, hdraws⟩

/-! ### The soft reset (R218, R219) -/

theorem hostAccess_ctrl (s : State) (v : Word) : hostAccess s ⟨s.params.regBase + 0x008, 4, .write v⟩ =
    .next (writeCtrl { s with response := .written } v) :=
  hostAccess_write_plain s (r := .ctrl) rfl v

theorem writeCtrl_set {v : Word} (h : v.getLsbD 0 = true) (s : State) : writeCtrl s v = s.softReset := if_pos h

theorem writeCtrl_clear {v : Word} (h : v.getLsbD 0 = false) (s : State) : writeCtrl s v = s :=
  if_neg (ne_true_of_eq_false h)

/-- Idle or busy, a soft reset ends with its register part. -/
theorem softReset_eq (s : State) : ∃ u, s.softReset = u.resetRegisters ∧ (s.engine = .idle → u = s) := by
  obtain h | ⟨l, h⟩ := engine_cases s
  · exact ⟨s, softReset_idle h, fun _ => rfl⟩
  · exact ⟨s.abort l, softReset_busy h, by simp [h]⟩

theorem resetRegisters_irq (s : State) : s.resetRegisters.irq = false := rfl

theorem resetRegisters_hist_get (s : State) (j : Fin 256) : s.resetRegisters.hist[j] = 0 :=
  Vector.getElem_replicate _

/-! ### The abort of the command in flight (R219) -/

/-- CONV of this format. -/
def convOf : Format → Instr
  | .gray => .convG
  | .color => .convC

theorem operationOf_eq_conv_iff (i : Instr) (f : Format) : operationOf i = .conv f ↔ i = convOf f := by
  cases f <;> cases i <;> decide

theorem operationOf_eq_lutap_iff (i : Instr) (f : Format) : operationOf i = .lutap f ↔ i = lutapOf f := by
  cases f <;> cases i <;> decide

theorem operationOf_eq_equal_iff (i : Instr) (f : Format) : operationOf i = .equal f ↔ i = equalOf f := by
  cases f <;> cases i <;> decide

theorem abortsLut_iff (i : Instr) : abortsLut i = true ↔ i ∈ [Instr.eqlut, .equalG, .equalC] := by
  cases i <;> decide

theorem abortsKmem_iff (i : Instr) : abortsKmem i = true ↔
    i ∈ [Instr.loadkBox, .loadkGauss, .loadkSharpen, .loadkOutline, .loadkEmboss] := by
  cases i <;> decide

/-- An aborted command leaves free values in the interior of a convolution, or in the region of LUTAP and EQUAL. -/
theorem abortedAddresses_cases {l : Latch} {a : Nat} (h : a ∈ abortedAddresses l) :
    (∃ f, l.instr = convOf f ∧ ∃ x y c, l.interior x y = true ∧ c < bpp f ∧ a = l.pix f x y c) ∨
    (∃ f, (l.instr = lutapOf f ∨ l.instr = equalOf f) ∧ l.InRegion f a) := by
  simp only [← operationOf_eq_conv_iff, ← operationOf_eq_lutap_iff, ← operationOf_eq_equal_iff]
  unfold abortedAddresses at h
  cases hop : operationOf l.instr with
  | conv f =>
    simp only [hop, List.mem_flatMap, List.mem_map, List.mem_range] at h
    obtain ⟨⟨x, y⟩, hp, c, hc, rfl⟩ := h
    exact .inl ⟨f, rfl, x, y, c, mem_interiorPixels.mp hp, hc, rfl⟩
  | lutap f =>
    simp only [hop, List.mem_map, List.mem_range] at h
    obtain ⟨k, hk, rfl⟩ := h
    exact .inr ⟨f, .inl rfl, Nat.le_add_right _ _, Nat.add_lt_add_left hk _⟩
  | equal f =>
    simp only [hop, List.mem_map, List.mem_range] at h
    obtain ⟨k, hk, rfl⟩ := h
    exact .inr ⟨f, .inr rfl, Nat.le_add_right _ _, Nat.add_lt_add_left hk _⟩
  | nop | histo f | eqlut | loadk => simp [hop] at h

/-- The frame of an abort in image memory. -/
theorem read_abort_imem (s : State) {l : Latch} {a : Nat} (h : a ∉ abortedAddresses l) :
    (s.abort l).imem.read a = s.imem.read a := by
  refine read_writeCells_ne s.imem fun cell hcell => ?_
  obtain ⟨b, hb, rfl⟩ := List.mem_map.mp hcell
  exact ne_of_mem_of_not_mem hb h

theorem abort_lut (s : State) {l : Latch} (h : abortsLut l.instr ≠ true) : (s.abort l).lut = s.lut := if_neg h

/-- Beyond the loaded entries KMEM is kept, however many entries it has. -/
theorem kmemLoad_getD_of_le (kmem : List Half) {ws : List Half} {j : Nat} (h : ws.length ≤ j) :
    (kmemLoad kmem ws).getD j 0 = kmem.getD j 0 := by
  by_cases hj : j < kmem.length
  · rw [kmemLoad_getD kmem ws (by omega), if_neg (by omega)]
  · rw [List.getD_eq_default _ _ (by simpa using hj), List.getD_eq_default _ _ (by omega)]

theorem abort_kmem_length (s : State) (l : Latch) : (s.abort l).kmem.length = s.kmem.length := by
  simp only [State.abort]
  split_ifs
  · exact kmemLoad_length _ _
  · rfl

/-- The frame of an abort in KMEM: the entries a LOADK does not load. -/
theorem abort_kmem_getD (s : State) {l : Latch} {j : Nat} (h : abortsKmem l.instr = true → 9 ≤ j) :
    (s.abort l).kmem.getD j 0 = s.kmem.getD j 0 := by
  simp only [State.abort]
  split_ifs with hk
  · exact kmemLoad_getD_of_le s.kmem (by simpa using h hk)
  · rfl

end Sys2Proof.Machine
end

section
/-! Settled: control (spec/42_control.md): the life of a command, dropped commands and the soft reset. -/

namespace Sys2Proof.Machine

/-- Settles O16: the completion is `exec_busy`, what it leaves is `completed_effectOf` and `sameControl_effectOf`, and an
idle engine does not move (R213, R214). -/
theorem commandInFlightCompletes : Obligations.CommandInFlightCompletes :=
  fun i s l hbusy => ⟨_, exec_busy hbusy i, completed_effectOf i l s, sameControl_effectOf i l s,
    mover_ne_engine_of_idle rfl⟩

/-- Settles O17: the hypotheses are those of `check_none_iff`, so the command is accepted, and its completion leaves
`State.perform` (R211, R212, R214). -/
theorem issuedCommandRunsToCompletion : Obligations.IssuedCommandRunsToCompletion := by
  intro i s hidle hkernel hgray hcolor
  have hcheck : check i s = .none := by
    refine (check_none_iff i s).mpr ⟨fun hc => hkernel ((isConv_iff i).mp hc), fun f hf => ?_⟩
    cases f with
    | gray =>
      rw [imageBytes_gray]
      exact hgray ((imageFormat_eq_gray_iff i).mp hf)
    | color =>
      rw [imageBytes_color]
      exact hcolor ((imageFormat_eq_color_iff i).mp hf)
  exact ⟨s.accept i, s.perform i, exec_of_check_none hidle hcheck, busy_of_busy (accept_engine s i), exec_accept s i,
    completed_perform s i, sameControl_perform s i⟩

/-- Settles O51: every soft reset ends with `State.resetRegisters`, on an idle engine from the state itself (R218,
R272). -/
theorem softResetClearsTheRegisters : Obligations.SoftResetClearsTheRegisters := by
  intro s v
  have haccess := hostAccess_ctrl s v
  refine ⟨fun hset => ?reset, fun hclear => ⟨.written, ?noEffect⟩⟩
  case reset =>
    obtain ⟨u, hreset, hidle⟩ := softReset_eq { s with response := .written }
    rw [writeCtrl_set hset, hreset] at haccess
    refine ⟨u.resetRegisters, haccess, rfl, rfl, rfl, rfl, rfl, rfl, rfl, rfl, rfl, rfl, rfl,
      resetRegisters_hist_get u, rfl, resetRegisters_irq u, fun h => ?_⟩
    obtain rfl := hidle h
    exact ⟨rfl, rfl, rfl⟩
  case noEffect =>
    rw [haccess, writeCtrl_clear hclear]

/-- Settles O52: the reset keeps the arrays that the abort leaves; `abortedAddresses_cases` gives the bytes the abort
writes, `abort_lut` and `abort_kmem_getD` the entries it keeps (R219, R273). -/
theorem abortTouchesOnlyTheCommandsTargets : Obligations.AbortTouchesOnlyTheCommandsTargets := by
  intro s l v hbusy hset
  have haccess := hostAccess_ctrl s v
  rw [writeCtrl_set hset, softReset_busy (s := { s with response := .written }) hbusy] at haccess
  refine ⟨_, haccess, rfl, rfl, abort_kmem_length _ l, fun a hconv hgray hcolor => ?imem,
    fun hlut => abort_lut _ (mt (abortsLut_iff l.instr).mp hlut),
    fun j hj => abort_kmem_getD _ fun hk => hj ((abortsKmem_iff l.instr).mp hk)⟩
  case imem =>
    refine read_abort_imem _ fun ha => ?_
    obtain ⟨f, hinstr, x, y, c, hi, hc, hpix⟩ | ⟨f, hinstr, hlow, hhigh⟩ := abortedAddresses_cases ha
    · obtain ⟨hx, hx', hy, hy'⟩ := interior_iff.mp hi
      refine hconv (f, convOf f) ?_ hinstr x y c hx hx' hy hy' hc hpix
      cases f <;> simp [convOf]
    · cases f with
      | gray =>
        rw [imageBytes_gray] at hhigh
        have hout := hgray (by simpa [lutapOf, equalOf] using hinstr)
        omega
      | color =>
        rw [imageBytes_color] at hhigh
        have hout := hcolor (by simpa [lutapOf, equalOf] using hinstr)
        omega

/-- Settles O6: an idle engine leaves the move to the host, whose line is the CMD write, and `writeCmd` runs a legal word
(R211). -/
theorem stepRunsTheIssuedCommand : Obligations.StepRunsTheIssuedCommand := by
  intro s w rest i hidle hscript hdecode
  calc step s = hostStep s := step_idle hidle hscript
    _ = hostAccess { s with script := rest } ⟨s.params.regBase + 0x014, 4, .write w⟩ := hostStep_access hscript
    _ = writeCmd { s with script := rest, response := .written } w := hostAccess_cmd { s with script := rest } w
    _ = exec i { s with script := rest, response := .written, cmd := w } :=
      writeCmd_idle_ok (s := { s with script := rest, response := .written }) hidle hdecode

/-- Settles O7: the engine moves alone at the end of the script, and by its turn beside a line (R213, R214). -/
theorem stepRunsTheCommandInFlight : Obligations.StepRunsTheCommandInFlight := by
  intro s l hbusy
  refine ⟨step_engine_alone hbusy, fun hscript hturn => ?_⟩
  obtain ⟨line, rest, hs⟩ := List.exists_cons_of_ne_nil hscript
  exact step_engine_turn hbusy hs hturn

/-- Settles O8: the placed word is the next line of an idle engine, and it decodes to the row's command
(`decode_of_decodeTableWord`), so `stepRunsTheIssuedCommand` applies (R211). -/
theorem stepRunsThePlacedWord : Obligations.StepRunsThePlacedWord :=
  fun s nbits w i hrow =>
    stepRunsTheIssuedCommand (s.withFetchWord nbits w) _ s.script i rfl rfl (decode_of_decodeTableWord hrow)

/-- Settles O10: on a busy engine the CMD write is `State.drop`, whatever the word (R216). -/
theorem cmdWriteWhileBusyIsDropped : Obligations.CmdWriteWhileBusyIsDropped :=
  fun s _ w hbusy => ⟨.written, (hostAccess_cmd s w).trans (writeCmd_busy (s := { s with response := .written }) hbusy w)⟩

/-- Settles O14: these are the commands without an image, which meet no check (`check_of_no_image`). -/
theorem commandsWithoutImageAreAccepted : Obligations.CommandsWithoutImageAreAccepted :=
  fun i s hi hidle => exec_of_check_none hidle (check_of_no_image ((imageFormat_eq_none_iff i).mpr hi) s)

/-- Settles O19: NOP's execution writes nothing, so completion alone is left (R210, R214). -/
theorem nopChangesOnlyBusyAndDone : Obligations.NopChangesOnlyBusyAndDone :=
  fun _ _ hbusy => exec_busy hbusy .nop

end Sys2Proof.Machine
end

section
/-! SUPPORT. The command rejection (spec/60_exceptions.md): the fixed order of the checks, and the two outcomes of a CMD
write on an idle engine. -/

namespace Sys2Proof.Machine

/-! ### The checks in their order (R233, R234, R235, R237) -/

/-- The command has an image, and its region ends past image memory (R72, R235). -/
def outOfBounds (i : Instr) (s : State) : Bool :=
  (imageFormat i).any fun f => s.params.imemSize < s.imgBase.toNat + imageBytes f s.imgW s.imgH

theorem outOfBounds_iff (i : Instr) (s : State) : outOfBounds i s = true ↔
    (i ∈ [Instr.convG, .histoG, .lutapG, .equalG] ∧
      2 ^ s.params.imemAw < s.imgBase.toNat + s.imgW.toNat * s.imgH.toNat) ∨
    (i ∈ [Instr.convC, .histoC, .lutapC, .equalC] ∧
      2 ^ s.params.imemAw < s.imgBase.toNat + s.imgW.toNat * s.imgH.toNat * 3) := by
  rw [← imageFormat_eq_gray_iff, ← imageFormat_eq_color_iff, outOfBounds]
  cases imageFormat i with
  | none => simp
  | some f =>
    simp only [Option.any_some, decide_eq_true_eq]
    cases f <;> simp [Params.imemSize, imageBytes_gray, imageBytes_color]

/-- The code of the first check that fails. -/
theorem check_eq_ite (i : Instr) (s : State) : check i s =
    if isConv i = true ∧ (s.ksize.toNat % 2 = 0 ∨ s.params.kmax < s.ksize.toNat) then .ksizeErr
    else if isConv i = true ∧ s.kdiv = 0 then .kdivErr
    else if outOfBounds i s = true then .boundsErr
    else .none := by
  cases hc : isConv i with
  | true =>
    obtain ⟨f, hf⟩ := isConv_format hc
    rw [check_of_conv hc hf]
    by_cases hsize : s.ksize.toNat % 2 = 0 ∨ s.params.kmax < s.ksize.toNat
    · simp [kernelCheck, hsize]
    · by_cases hdiv : s.kdiv = 0#16
      · simp [kernelCheck, hsize, hdiv]
      · simp [kernelCheck, hsize, hdiv, boundsCheck, outOfBounds, hf]
  | false =>
    rw [check_of_not_conv hc]
    cases hf : imageFormat i <;> simp [boundsCheck, outOfBounds, hf]

theorem exec_of_check_fails {s : State} {i : Instr} {code : ErrCode} (hidle : s.engine = .idle)
    (hcheck : check i s = code) (hcode : code ≠ .none) : exec i s = .next (s.reject code) := by
  subst hcheck
  obtain ⟨hnone, -⟩ | ⟨-, hissue⟩ := issue_cases i s
  · exact absurd hnone hcode
  · rw [exec_idle hidle, hissue]

/-! ### The CMD write on an idle engine (R211, R232, R236) -/

theorem writeCmd_idle_error {s : State} {w : Word} {e : DecodeError} (h : s.engine = .idle)
    (hd : decode w = .error e) : writeCmd s w = .next ({ s with cmd := w }.reject .illegalCmd) := by
  simp [writeCmd, h, hd]

/-- The command of the word is accepted, or the write is rejected with one code; CMD holds the word either way. -/
theorem hostAccess_cmd_idle_cases {s : State} (hidle : s.engine = .idle) (w : Word) :
    (∃ i, decode w = .ok i ∧ hostAccess s ⟨s.params.regBase + 0x014, 4, .write w⟩ =
      .next ({ s with response := .written, cmd := w }.accept i)) ∨
    (∃ code, code ≠ ErrCode.none ∧ hostAccess s ⟨s.params.regBase + 0x014, 4, .write w⟩ =
      .next ({ s with response := .written, cmd := w }.reject code)) := by
  rw [hostAccess_cmd]
  cases hd : decode w with
  | error e => exact .inr ⟨.illegalCmd, by decide, writeCmd_idle_error hidle hd⟩
  | ok i =>
    rw [writeCmd_idle_ok (s := { s with response := .written }) hidle hd]
    by_cases hcheck : check i { s with response := .written, cmd := w } = .none
    · exact .inl ⟨i, rfl, exec_of_check_none hidle hcheck⟩
    · exact .inr ⟨_, hcheck, exec_of_check_fails hidle rfl hcheck⟩

end Sys2Proof.Machine
end

section
/-! Settled: exceptions (spec/60_exceptions.md): the command rejection, its checks and its effect. -/

namespace Sys2Proof.Machine

/-- Settles O11: on an idle engine the write is accepted or rejected (`hostAccess_cmd_idle_cases`), on a busy one it is
dropped (R216, R238). -/
theorem cmdWriteHasOneOutcome : Obligations.CmdWriteHasOneOutcome := by
  intro s w
  obtain hidle | ⟨l, hbusy⟩ := engine_cases s
  · obtain ⟨i, hdecode, haccess⟩ | ⟨code, hcode, haccess⟩ := hostAccess_cmd_idle_cases hidle w
    · exact ⟨_, haccess, .inl ⟨hidle, rfl, .inl ⟨_, rfl, (decode_eq_ok_iff.mp hdecode).symm, rfl⟩⟩⟩
    · exact ⟨_, haccess, .inl ⟨hidle, rfl, .inr ⟨hidle, code, hcode, rfl⟩⟩⟩
  · obtain ⟨r, haccess⟩ := cmdWriteWhileBusyIsDropped s l w hbusy
    exact ⟨_, haccess, .inr ⟨by simp [hbusy], rfl, rfl, rfl⟩⟩

/-- Settles O12: issue rejects with the first failing check's code, which `check_eq_ite` gives, and else accepts (R233,
R234, R237). -/
theorem checksAreMadeInFixedOrder : Obligations.ChecksAreMadeInFixedOrder := by
  intro i s hidle
  have hcheck := check_eq_ite i s
  simp only [← isConv_iff, ← outOfBounds_iff]
  split_ifs at hcheck ⊢
  · exact exec_of_check_fails hidle hcheck (by decide)
  · exact exec_of_check_fails hidle hcheck (by decide)
  · exact exec_of_check_fails hidle hcheck (by decide)
  · exact exec_of_check_none hidle hcheck

/-- Settles O13: an accepted command leaves the engine busy, so the write was rejected, and `State.reject` sets ERR (R236,
R38). -/
theorem rejectionChangesOnlyErr : Obligations.RejectionChangesOnlyErr := by
  intro s t w hidle hwrite hstill
  obtain ⟨i, -, haccess⟩ | ⟨code, hcode, haccess⟩ := hostAccess_cmd_idle_cases hidle w
  · obtain rfl := Host.Outcome.next.inj (hwrite.symm.trans haccess)
    simp at hstill
  · obtain rfl := Host.Outcome.next.inj (hwrite.symm.trans haccess)
    exact ⟨.written, code, hcode, rfl, fun hie => by simp [State.irq, Status.rejected, hie]⟩

/-- Settles O9: an illegal word is no command, so the write is a rejection with ILLEGAL_CMD (R232, R236). -/
theorem illegalWordIsRejected : Obligations.IllegalWordIsRejected :=
  fun s w _ hidle hdecode => ⟨.written,
    (hostAccess_cmd s w).trans (writeCmd_idle_error (s := { s with response := .written }) hidle hdecode)⟩

end Sys2Proof.Machine
end

section
/-! SUPPORT. The host beside a busy engine (spec/70_reset_and_hazards.md R280, R281): operand registers rewritten in
flight, the refusals, what a harmless line leaves alone, and the steps until the completion (R285). -/

namespace Sys2Proof.Machine

/-! ### Operand registers rewritten in flight (R280) -/

/-- No command reads the operand registers of the state; LOADK alone writes two of them, KSIZE and KDIV. -/
theorem effectOf_setOperands (i : Instr) (l : Latch) (s : State) (b : Word) (w h : Half) (k : BitVec 4) (d : Half) :
    ∃ k' d', effectOf i l { s with imgBase := b, imgW := w, imgH := h, ksize := k, kdiv := d } =
      { effectOf i l s with imgBase := b, imgW := w, imgH := h, ksize := k', kdiv := d' } := by
  cases i with
  | loadkBox | loadkGauss | loadkSharpen | loadkOutline | loadkEmboss => exact ⟨3, _, rfl⟩
  | nop | convG | convC | histoG | histoC | eqlut | lutapG | lutapC | equalG | equalC => exact ⟨k, d, rfl⟩

/-! ### Refused accesses (R281) -/

/-- What the busy engine's refusal leaves. -/
def State.refuse (s : State) (width : Nat) : AccessKind → State
  | .read => s.refuseRead width
  | .write _ => s.refuseWrite

theorem accessReg_refused {s : State} {l : Latch} {r : Reg} (hbusy : s.engine = .busy l) (hr : isArray r = true)
    (k : AccessKind) : accessReg s r k = .next (s.refuse 4 k) := by
  cases k <;> simp [accessReg, busy_of_busy hbusy, hr, State.refuse]

theorem accessImem_refused {s : State} {l : Latch} (hbusy : s.engine = .busy l) (a w : Nat) (k : AccessKind) :
    accessImem s a w k = .next (s.refuse w k) := by
  cases k <;> simp [accessImem, busy_of_busy hbusy, State.refuse]

/-- The entries of the three windows lie at these offsets (R44). -/
theorem isArray_regAt {kmax offset : Nat} (h : (0x400 ≤ offset ∧ offset < 0x900) ∨
    (0xC00 ≤ offset ∧ offset < 0xC00 + 4 * (kmax * kmax))) : isArray (regAt kmax offset) = true := by
  unfold regAt
  by_cases hhist : 0x400 ≤ offset ∧ offset < 0x800
  · rw [dif_pos hhist, isArray]
  · by_cases hlut : 0x800 ≤ offset ∧ offset < 0x900
    · rw [dif_neg hhist, dif_pos hlut, isArray]
    · rw [dif_neg hhist, dif_neg hlut, if_pos (by omega), isArray]

theorem kmax_le_of_legal {p : Params} (h : p.legal = true) : p.kmax ≤ 15 := by
  simp only [Params.legal, Bool.and_eq_true, decide_eq_true_eq] at h
  obtain ⟨⟨⟨⟨⟨⟨⟨-, -, hkmax⟩, -⟩, -⟩, -⟩, -⟩, -⟩, -⟩ := h
  exact hkmax

/-- The values of R7 keep the windows inside the register window (R22). -/
theorem window_lt_of_legal {p : Params} (h : p.legal = true) : 0xC00 + 4 * (p.kmax * p.kmax) < 0x1000 := by
  have hsquare : p.kmax * p.kmax ≤ 15 * 15 := Nat.mul_le_mul (kmax_le_of_legal h) (kmax_le_of_legal h)
  omega

theorem refuseRead_value_lt (s : State) (w : Nat) :
    (((Config.freeReadWord s.draws).setWidth (8 * w)).setWidth 32).toNat < 2 ^ (8 * w) := by
  rw [BitVec.toNat_setWidth]
  exact (Nat.mod_le _ _).trans_lt (BitVec.isLt _)

/-! ### What a harmless line leaves alone (R281, R216, R76, R77) -/

/-- What no harmless line of the host touches beside a busy engine; of the script it uses up lines at most. -/
structure Undisturbed (s t : State) : Prop extends SameEq s t where
  params : t.params = s.params := by rfl
  cmd : t.cmd = s.cmd := by rfl
  engine : t.engine = s.engine := by rfl
  imem : t.imem = s.imem := by rfl
  hist : t.hist = s.hist := by rfl
  lut : t.lut = s.lut := by rfl
  kmem : t.kmem = s.kmem := by rfl
  turns : t.turns = s.turns := by rfl
  script : t.script ⊆ s.script := by exact List.Subset.refl _
  eqN := by rfl
  eqCdfMin := by rfl
  degen := by rfl

theorem undisturbed_refuse (s : State) (w : Nat) (k : AccessKind) : Undisturbed s (s.refuse w k) := by
  cases k <;> exact {}

/-- R216 drops a CMD write, and no register outside the windows is the engine's. -/
theorem writeReg_undisturbed {s : State} {l : Latch} {r : Reg} {v : Word} (hbusy : s.engine = .busy l)
    (hr : isArray r = false) (hreset : r = .ctrl → v.getLsbD 0 = false) :
    ∃ t, writeReg s v r = .next t ∧ Undisturbed s t := by
  cases r with
  | hist | lutw | kmem => simp [isArray] at hr
  | cmd => exact ⟨s.drop, writeCmd_busy hbusy v, {}⟩
  | ctrl => exact ⟨s, congrArg Host.Outcome.next (writeCtrl_clear (hreset rfl) s), {}⟩
  | id | caps | status | ier | imgBase | imgW | imgH | ksize | kdiv | eqN | eqCdfMin | eqStat | reserved =>
    exact ⟨_, rfl, {}⟩

theorem accessReg_undisturbed {s : State} {l : Latch} {r : Reg} {k : AccessKind} (hbusy : s.engine = .busy l)
    (hreset : ∀ v, k = .write v → r = .ctrl → v.getLsbD 0 = false) :
    ∃ t, accessReg s r k = .next t ∧ Undisturbed s t := by
  cases hr : isArray r with
  | true => exact ⟨_, accessReg_refused hbusy hr k, undisturbed_refuse s 4 k⟩
  | false =>
    have hanswered : Answered s r := by simp [Answered, hr]
    cases k with
    | read => exact ⟨_, accessReg_read hanswered, {}⟩
    | write v =>
      obtain ⟨t, hwrite, ht⟩ := writeReg_undisturbed (s := { s with response := .written }) hbusy hr (hreset v rfl)
      exact ⟨t, (accessReg_write hanswered v).trans hwrite, { ht with }⟩

theorem hostAccess_undisturbed {s : State} {l : Latch} {a : HostAccess} (hbusy : s.engine = .busy l)
    (ha : harmlessLine s.params (.access a) = true) : ∃ t, hostAccess s a = .next t ∧ Undisturbed s t := by
  obtain ⟨hr, -⟩ | ⟨offset, hr, h⟩ | ⟨address, hr, h⟩ := hostAccess_cases s a
  case inl => simp [harmlessLine, hr] at ha
  case inr.inl =>
    simp only [harmlessLine, hr, Bool.and_eq_true] at ha
    obtain ⟨haligned, hnoReset⟩ := ha
    obtain ⟨hbad, -⟩ | ⟨-, h⟩ := h
    · simp [haligned] at hbad
    · rw [h]
      refine accessReg_undisturbed hbusy fun v hk hctrl => ?_
      simpa [hk, hctrl] using hnoReset
  case inr.inr =>
    obtain ⟨hbad, -⟩ | ⟨-, h⟩ := h
    · simp [harmlessLine, hr, hbad] at ha
    · exact ⟨_, h.trans (accessImem_refused hbusy address a.width a.kind), undisturbed_refuse s a.width a.kind⟩

theorem hostStep_takeIrq {s : State} {rest : List HostLine} (hs : s.script = .takeIrq :: rest) :
    hostStep s = .next { s with script := if s.irq then rest else s.script } := by
  rw [hostStep, hs]

theorem hostStep_undisturbed {s : State} {l : Latch} {line : HostLine} {rest : List HostLine}
    (hbusy : s.engine = .busy l) (hs : s.script = line :: rest) (hline : harmlessLine s.params line = true) :
    ∃ t, hostStep s = .next t ∧ Undisturbed s t := by
  have hrest : rest ⊆ s.script := hs ▸ List.subset_cons_self line rest
  cases line with
  | access a =>
    obtain ⟨t, haccess, ht⟩ := hostAccess_undisturbed (s := { s with script := rest }) hbusy hline
    exact ⟨t, (hostStep_access hs).trans haccess, { ht with script := List.Subset.trans ht.script hrest }⟩
  | wait =>
    refine ⟨_, hostStep_wait hs, { script := ?_ }⟩
    by_cases h : s.busy = true
    · simp [h]
    · simpa [h] using hrest
  | takeIrq =>
    refine ⟨_, hostStep_takeIrq hs, { script := ?_ }⟩
    by_cases h : s.irq = true
    · simpa [h] using hrest
    · simp [h]

/-! ### The steps until the completion (R285) -/

/-- Beside harmless lines a busy engine completes with the next step, or the host's turn before it is used up and the
command still in flight. -/
theorem step_busy_cases {s : State} {l : Latch} (hbusy : s.engine = .busy l)
    (hscript : ∀ line ∈ s.script, harmlessLine s.params line = true) :
    (∃ t, step s = .next t ∧ Completed s t) ∨
    (∃ t ts, step s = .next t ∧ s.turns = .host :: ts ∧ Undisturbed { s with turns := ts } t) := by
  obtain ⟨hidle, -⟩ | ⟨l', ts, hbusy', hstep⟩ | ⟨line, rest, -, hs, hmover, -⟩ := step_cases s
  · cases hbusy.symm.trans hidle
  · have hexec := exec_busy (s := { s with turns := ts }) hbusy' l'.instr
    exact .inl ⟨_, hstep.trans hexec, { completed_effectOf l'.instr l' { s with turns := ts } with }⟩
  · obtain hidle | ⟨-, ts, -, hturns⟩ := mover_host_cases hs hmover
    · cases hbusy.symm.trans hidle
    · obtain ⟨t, hstep, ht⟩ := hostStep_undisturbed (s := { s with turns := ts }) hbusy hs
        (hscript line (hs ▸ List.mem_cons_self))
      exact .inr ⟨t, ts, (step_host_turn hbusy hs hturns).trans hstep, hturns, ht⟩

/-- Each step before the completion uses up one entry of `turns`. -/
theorem reaches_completion {s : State} {l : Latch} {turns : List Agent} (hturns : s.turns = turns)
    (hbusy : s.engine = .busy l) (hscript : ∀ line ∈ s.script, harmlessLine s.params line = true) :
    ∃ k t, k ≤ turns.length + 1 ∧ Reaches k s t ∧ t.engine = .idle ∧ t.status.done = true := by
  induction turns generalizing s with
  | nil =>
    obtain ⟨t, hstep, ht⟩ | ⟨_, ts, -, hhost, -⟩ := step_busy_cases hbusy hscript
    · exact ⟨1, t, by simp, ⟨t, hstep, rfl⟩, ht.idle, ht.done⟩
    · cases hturns.symm.trans hhost
  | cons _ ts ih =>
    obtain ⟨t, hstep, ht⟩ | ⟨u, _, hstep, hhost, hu⟩ := step_busy_cases hbusy hscript
    · exact ⟨1, t, by simp, ⟨t, hstep, rfl⟩, ht.idle, ht.done⟩
    · obtain ⟨-, rfl⟩ := List.cons.inj (hturns.symm.trans hhost)
      have hharmless (line : HostLine) (hline : line ∈ u.script) : harmlessLine u.params line = true :=
        hu.params ▸ hscript line (hu.script hline)
      obtain ⟨k, t, hk, hreach, hend⟩ := ih hu.turns (hu.engine.trans hbusy) hharmless
      exact ⟨k + 1, t, Nat.succ_le_succ hk, ⟨u, hstep, hreach⟩, hend⟩

end Sys2Proof.Machine
end

section
/-! SUPPORT. The empty histogram a power-on leaves (R51, R271). -/

namespace Sys2Proof.Machine

theorem histTotal_of_empty {h : Vector Word 256} (h0 : ∀ j : Fin 256, h[j] = 0) : histTotal h = 0 := by
  simp [histTotal_eq_sum, h0]

theorem degenerate_of_empty {h : Vector Word 256} (h0 : ∀ j : Fin 256, h[j] = 0) : degenerate h = true :=
  (degenerate_iff h).mpr ((histTotal_of_empty h0).trans (cdfMin_of_empty h0).symm)

theorem powerOn_hist_get (p : Params) (lut : Vector Byte 256) (kmem : List Half) (imem : Memory) (j : Fin 256) :
    (State.powerOn p lut kmem imem).hist[j] = 0 :=
  Vector.getElem_replicate _

@[simp] theorem perform_eqlut_eqN (s : State) : (s.perform .eqlut).eqN = BitVec.ofNat 32 (histTotal s.hist) := rfl

@[simp] theorem perform_eqlut_eqCdfMin (s : State) :
    (s.perform .eqlut).eqCdfMin = BitVec.ofNat 32 (cdfMin s.hist) := rfl

@[simp] theorem perform_eqlut_degen (s : State) : (s.perform .eqlut).degen = degenerate s.hist := rfl

@[simp] theorem perform_eqlut_lut (s : State) : (s.perform .eqlut).lut = remapTable s.hist := rfl

/-- An empty histogram is the degenerate case of R172, whose table is the identity. -/
theorem perform_eqlut_of_empty {s : State} (h0 : ∀ j : Fin 256, s.hist[j] = 0) :
    (s.perform .eqlut).eqN = 0 ∧ (s.perform .eqlut).eqCdfMin = 0 ∧ (s.perform .eqlut).degen = true ∧
      ∀ i : Fin 256, ((s.perform .eqlut).lut[i]).toNat = i.val := by
  have hdegenerate := degenerate_of_empty h0
  simp only [perform_eqlut_eqN, perform_eqlut_eqCdfMin, perform_eqlut_degen, perform_eqlut_lut, histTotal_of_empty h0,
    cdfMin_of_empty h0]
  exact ⟨rfl, rfl, hdegenerate, remapTable_toNat_degenerate hdegenerate⟩

/-- Past the contents the spec leaves open, the invariant asks of a power-on what R270 sets. -/
theorem powerOn_inv {p : Params} {kmem : List Half} {imem : Memory} (lut : Vector Byte 256) (hp : p.legal = true)
    (hkmem : kmem.length = p.kmax * p.kmax) (hwf : imem.wf = true) (hbelow : imem.below p.imemSize) :
    (State.powerOn p lut kmem imem).Inv where
  params := hp
  base := Nat.two_pow_pos p.imemAw
  kmemSize := hkmem
  memForm := hwf
  memRange := hbelow
  errcode := iff_of_true rfl rfl
  histBound := by
    rw [histTotal_of_empty (powerOn_hist_get p lut kmem imem)]
    decide
  inFlight := fun _ hbusy => nomatch hbusy

end Sys2Proof.Machine
end

section
/-! Settled: reset and hazards (spec/70_reset_and_hazards.md): what a power-on leaves, the hazards of a busy engine, and
the completion of the command in flight. -/

namespace Sys2Proof.Machine

/-- Settles O60: by induction on `turns`, in `reaches_completion` (R285). -/
theorem commandInFlightCompletesInFiniteTime : Obligations.CommandInFlightCompletesInFiniteTime :=
  fun _ _ hbusy hscript => reaches_completion rfl hbusy hscript

/-- Settles O50: the line is the host's move, which `hostStep_undisturbed` bounds (R281, R216). -/
theorem hostCannotDisturbTheCommandInFlight : Obligations.HostCannotDisturbTheCommandInFlight := by
  intro s t l line rest hbusy hs hline hmover hstep
  obtain ⟨ts, hhost⟩ := step_host hs hmover
  obtain ⟨u, hu, hframe⟩ := hostStep_undisturbed (s := { s with turns := ts }) hbusy hs hline
  obtain rfl : t = u := Host.Outcome.next.inj (hstep.symm.trans (hhost.trans hu))
  exact ⟨hframe.engine.trans hbusy, hframe.imem, hframe.hist, hframe.lut, hframe.kmem,
    ⟨hframe.eqN, hframe.eqCdfMin, hframe.degen⟩, hframe.cmd⟩

/-- Settles O48: a window entry and an image-memory address are both refused (`accessReg_refused`, `accessImem_refused`),
and the value read is cut to the width (R281, U2). -/
theorem busyEngineRefusesArrayAccess : Obligations.BusyEngineRefusesArrayAccess := by
  intro s l n w v hlegal hbusy htarget
  have hrefused (k : AccessKind) : hostAccess s ⟨n, w, k⟩ = .next (s.refuse w k) := by
    obtain ⟨offset, rfl, rfl, h4, hwindow⟩ | ⟨a, rfl, ha, hw, halign⟩ := htarget
    · have hend := window_lt_of_legal hlegal
      rw [hostAccess_reg s (by omega) h4, accessReg_refused hbusy (isArray_regAt hwindow)]
    · rw [hostAccess_imem s (disjoint_of_legal hlegal) ha hw halign, accessImem_refused hbusy]
  exact ⟨⟨.written, hrefused (.write v)⟩, _, refuseRead_value_lt s w, hrefused .read⟩

/-- Settles O18: the two runs leave the same state but for the operand registers (`effectOf_setOperands`), since every
command reads its operands from LATCH (R280). -/
theorem latchedOperandsShieldTheCommand : Obligations.LatchedOperandsShieldTheCommand := by
  intro i s t t' l b w h k d hbusy hexec hexec'
  obtain ⟨k', d', heffect⟩ := effectOf_setOperands i l s b w h k d
  have ht' := eq_complete_of_exec
    (s := { s with imgBase := b, imgW := w, imgH := h, ksize := k, kdiv := d }) hbusy hexec'
  rw [heffect] at ht'
  rw [ht', eq_complete_of_exec hbusy hexec]
  exact ⟨rfl, rfl, rfl, rfl, ⟨rfl, rfl, rfl⟩, rfl, rfl, rfl⟩

/-- Settles O56: EQLUT meets no check, and HIST is empty after a power-on, which is the degenerate case (R271, R172). -/
theorem eqlutAfterPowerOnIsIdentity : Obligations.EqlutAfterPowerOnIsIdentity := by
  intro p lut kmem imem
  have hempty := powerOn_hist_get p lut kmem imem
  exact ⟨_, _, exec_of_check_none rfl (check_of_no_image rfl _), exec_accept _ .eqlut, perform_eqlut_of_empty hempty⟩

/-- Settles O57: `powerOn_inv`, and `State.reset` is the power-on with the vectors' parameters and zero contents (R270). -/
theorem powerOnMeetsTheInvariant : Obligations.PowerOnMeetsTheInvariant :=
  ⟨fun _ lut _ _ => powerOn_inv lut, powerOn_inv _ (by decide) (by decide) rfl (List.forall_mem_nil _)⟩

end Sys2Proof.Machine
end

section
/-! SUPPORT. The four bytes of a command word, taken together again (R64, R90). -/

namespace Sys2Proof

/-- A word is made up of its own four bytes. -/
theorem wordOfBytes_extractLsb' (w : Word) :
    wordOfBytes (w.extractLsb' 0 8) (w.extractLsb' 8 8) (w.extractLsb' 16 8) (w.extractLsb' 24 8) = w := by
  have hbyte (start : Nat) : w.extractLsb' start 8 = BitVec.ofNat 8 (w.toNat / 2 ^ start) :=
    congrArg (BitVec.ofNat 8) (Nat.shiftRight_eq_div_pow w.toNat start)
  have hword := wordOfBytes_ofNat w.toNat
  rw [BitVec.ofNat_toNat, BitVec.setWidth_eq] at hword
  simpa only [hbyte] using hword

/-- The decoder on bytes takes the first four and hands back the rest. -/
theorem decodeBytes_cons_of_decode {b0 b1 b2 b3 : Byte} {i : Instr} (h : decode (wordOfBytes b0 b1 b2 b3) = .ok i)
    (rest : List Byte) : decodeBytes (b0 :: b1 :: b2 :: b3 :: rest) = .ok (i, rest) := by
  rw [decodeBytes, h]

end Sys2Proof
end

section
/-! SUPPORT. The invariant under each named operation of the state, then under each access, and so under a step. -/

namespace Sys2Proof.Machine

/-! ### The engine's writes (R40, R41, R70, R213) -/

/-- The bins of an image add up to its pixels, fewer than a 32-bit count holds (R41). -/
theorem histTotal_accumulate_lt (f : Format) (l : Latch) : histTotal (accumulate f l) < 2 ^ 32 := by
  have hpixels := pixels_length_lt l
  rwa [Latch.pixels, coords_length, ← accumulate_sum f l, ← histTotal_eq_sum] at hpixels

/-- Execution leaves HIST, or counts the image into it (R161). -/
theorem effectOf_hist (i : Instr) (l : Latch) (s : State) :
    (effectOf i l s).hist = s.hist ∨ ∃ f, (effectOf i l s).hist = accumulate f l := by
  cases i with
  | histoG | equalG => exact .inr ⟨.gray, rfl⟩
  | histoC | equalC => exact .inr ⟨.color, rfl⟩
  | nop | convG | convC | eqlut | lutapG | lutapC | loadkBox | loadkGauss | loadkSharpen | loadkOutline
    | loadkEmboss => exact .inl rfl

theorem effectOf_kmem_length (i : Instr) (l : Latch) (s : State) : (effectOf i l s).kmem.length = s.kmem.length := by
  cases i with
  | loadkBox | loadkGauss | loadkSharpen | loadkOutline | loadkEmboss => exact kmemLoad_length _ _
  | nop | convG | convC | histoG | histoC | eqlut | lutapG | lutapC | equalG | equalC => rfl

/-- The region of a command in flight lies in image memory (R72). -/
theorem Latch.Legal.inRegion_lt {p : Params} {l : Latch} (hl : l.Legal p) {f : Format} {a : Nat}
    (hf : imageFormat l.instr = some f) (ha : l.InRegion f a) : a < p.imemSize :=
  ha.2.trans_le (hl.region f hf)

/-! ### The operations of the state -/

section
variable {s : State} (h : s.Inv)
include h

/-- While the engine is idle CMD may hold any word (R211). -/
theorem inv_setCmd (hidle : s.engine = .idle) (w : Word) : ({ s with cmd := w } : State).Inv :=
  { h with inFlight := fun _ hbusy => nomatch hidle.symm.trans hbusy }

/-- The invariant says nothing of LUT (R42). -/
theorem inv_setLut (lut : Vector Byte 256) : ({ s with lut := lut } : State).Inv :=
  { h with }

/-- R31: clearing ERR clears ERRCODE, and a write never sets DONE. -/
theorem inv_writeStatus (v : Word) : (s.writeStatus v).Inv :=
  { h with
    errcode := by
      rw [writeStatus_status, Status.clear]
      cases v.getLsbD 2 <;> simp [h.errcode]
    inFlight := fun l hbusy => by
      obtain ⟨hlegal, hsnapshot, hdone, hcmd⟩ := h.inFlight l hbusy
      exact ⟨hlegal, hsnapshot, by simp [Status.clear, hdone], hcmd⟩ }

/-- R236: a rejection sets ERR together with a code. -/
theorem inv_reject (hidle : s.engine = .idle) {code : ErrCode} (hcode : code ≠ .none) : (s.reject code).Inv :=
  { h with
    errcode := iff_of_false hcode nofun
    inFlight := fun _ hbusy => nomatch hidle.symm.trans hbusy }

/-- R212: the checks passed are what the operands in flight have to meet. -/
theorem inv_accept {i : Instr} (hcheck : check i s = .none) (hcmd : s.cmd = encode i) : (s.accept i).Inv := by
  obtain ⟨hkernel, hregion⟩ := (check_none_iff i s).mp hcheck
  exact { h with
    inFlight := fun l hbusy => by
      obtain rfl : latchOf i s = l := Engine.busy.inj hbusy
      exact ⟨⟨h.base, hkernel, hregion⟩, rfl, rfl, hcmd⟩ }

theorem inv_issue (hidle : s.engine = .idle) {i : Instr} (hcmd : s.cmd = encode i) : (s.issue i).Inv := by
  obtain ⟨hcheck, hissue⟩ | ⟨hfail, hissue⟩ := issue_cases i s
  · exact hissue ▸ inv_accept h hcheck hcmd
  · exact hissue ▸ inv_reject h hidle hfail

/-- Execution stays in the region, which lies in image memory, and an image's histogram fits (R70, R41). -/
theorem inv_complete_effectOf {l : Latch} (hbusy : s.engine = .busy l) : (effectOf l.instr l s).complete.Inv := by
  obtain ⟨hlegal, -⟩ := h.inFlight l hbusy
  obtain ⟨hparams, hstatus, -, -, hbase, -⟩ := effectOf_frame l.instr l s
  obtain ⟨cells, himem, hcells⟩ := effectOf_imem l.instr l s
  constructor
  case params => rw [complete_params, hparams, h.params]
  case base =>
    rw [complete_params, complete_imgBase, hparams, hbase]
    exact h.base
  case kmemSize => rw [complete_params, complete_kmem, hparams, effectOf_kmem_length, h.kmemSize]
  case memForm =>
    rw [complete_imem, himem]
    exact wf_writeCells h.memForm cells
  case memRange =>
    rw [complete_params, complete_imem, hparams, himem]
    refine below_writeCells h.memRange fun cell hcell => ?_
    obtain ⟨f, hf, hcell⟩ := hcells cell hcell
    exact hlegal.inRegion_lt hf hcell
  case errcode =>
    rw [complete_status, hstatus]
    exact h.errcode
  case histBound =>
    rw [complete_hist]
    obtain hhist | ⟨f, hhist⟩ := effectOf_hist l.instr l s
    · exact hhist ▸ h.histBound
    · exact hhist ▸ histTotal_accumulate_lt f l
  case inFlight => exact fun _ hcomplete => nomatch hcomplete

end

/-- A soft reset leaves the registers of a power-on (R218, R270), so the invariant asks for the rest alone. -/
theorem inv_resetRegisters {s : State} (hp : s.params.legal = true)
    (hkmem : s.kmem.length = s.params.kmax * s.params.kmax) (hwf : s.imem.wf = true)
    (hbelow : s.imem.below s.params.imemSize) : s.resetRegisters.Inv :=
  { powerOn_inv s.lut hp hkmem hwf hbelow with }

/-- The free values of an abort lie in the region of the command in flight (R219, R70). -/
theorem below_abort_imem {s : State} {l : Latch} (hl : l.Legal s.params) (hbelow : s.imem.below s.params.imemSize) :
    (s.abort l).imem.below s.params.imemSize := by
  refine below_writeCells hbelow fun cell hcell => ?_
  obtain ⟨a, ha, rfl⟩ := List.mem_map.mp hcell
  obtain ⟨f, hf, hregion⟩ := abortedAddresses_mem_region ha
  exact hl.inRegion_lt hf hregion

theorem inv_softReset {s : State} (h : s.Inv) : s.softReset.Inv := by
  obtain hidle | ⟨l, hbusy⟩ := engine_cases s
  · rw [softReset_idle hidle]
    exact inv_resetRegisters h.params h.kmemSize h.memForm h.memRange
  · rw [softReset_busy hbusy]
    obtain ⟨hlegal, -⟩ := h.inFlight l hbusy
    exact inv_resetRegisters h.params ((abort_kmem_length s l).trans h.kmemSize) (wf_writeCells h.memForm _)
      (below_abort_imem hlegal h.memRange)

theorem softReset_params (s : State) : s.softReset.params = s.params := by
  obtain hidle | ⟨l, hbusy⟩ := engine_cases s
  · rw [softReset_idle hidle, resetRegisters_params]
  · rw [softReset_busy hbusy, resetRegisters_params, State.abort]

theorem issue_params (s : State) (i : Instr) : (s.issue i).params = s.params := by
  obtain ⟨-, hissue⟩ | ⟨-, hissue⟩ := issue_cases i s <;> rw [hissue]
  · exact accept_params s i
  · exact reject_params s _

/-- R28: a write to IMG_BASE keeps IMEM_AW bits. -/
theorem imgBase_write_lt (p : Params) (v : Word) : (BitVec.ofNat 32 (v.toNat % p.imemSize)).toNat < p.imemSize := by
  have hlt : v.toNat % p.imemSize < p.imemSize := Nat.mod_lt _ (Nat.two_pow_pos p.imemAw)
  rw [BitVec.toNat_ofNat]
  exact (Nat.mod_le _ _).trans_lt hlt

/-- R61, R63: an aligned access of image memory ends inside it, whose size is a multiple of 4. -/
theorem imem_access_end_le {p : Params} (hp : p.legal = true) {a : HostAccess} {address : Nat}
    (hroute : route p a.addr = some (.imem address)) (haligned : a.imemAligned address = true) :
    address + a.width ≤ p.imemSize := by
  have hlt : address < p.imemSize := by
    unfold route at hroute
    split_ifs at hroute with hregister himem
    · cases hroute
    · cases hroute
      omega
  have hsize : 4 ∣ p.imemSize := by
    simp only [Params.legal, Bool.and_eq_true, decide_eq_true_eq] at hp
    obtain ⟨⟨⟨⟨⟨⟨⟨haw, -⟩, -⟩, -⟩, -⟩, -⟩, -⟩, -⟩ := hp
    exact Nat.pow_dvd_pow 2 (m := 2) (by omega)
  simp only [HostAccess.imemAligned, Bool.and_eq_true, Bool.or_eq_true, beq_iff_eq] at haligned
  obtain ⟨hwidth, hmod⟩ := haligned
  obtain (hw | hw) | hw := hwidth <;> rw [hw] at hmod ⊢ <;> omega

/-! ### The accesses and the step -/

/-- If the outcome goes on, it does so with these parameters in a state that meets the invariant. -/
def KeepsInv (p : Params) (o : Out) : Prop := ∀ t, o = .next t → t.Inv ∧ t.params = p

theorem keepsInv_next {p : Params} {t : State} (ht : t.Inv) (hp : t.params = p) : KeepsInv p (.next t) :=
  fun _ heq => Host.Outcome.next.inj heq ▸ ⟨ht, hp⟩

theorem keepsInv_fault (p : Params) (e : Fault) : KeepsInv p (.fault e) :=
  fun _ heq => nomatch heq

section
variable {s : State} (h : s.Inv)
include h

theorem keepsInv_writeCtrl (v : Word) : KeepsInv s.params (.next (writeCtrl s v)) := by
  unfold writeCtrl
  split_ifs
  · exact keepsInv_next (inv_softReset h) (softReset_params s)
  · exact keepsInv_next h rfl

theorem keepsInv_writeCmd (w : Word) : KeepsInv s.params (writeCmd s w) := by
  obtain ⟨l, -, hwrite⟩ | ⟨hidle, e, -, hwrite⟩ | ⟨hidle, i, hdecode, hwrite, hexec⟩ := writeCmd_cases s w
  · rw [hwrite]
    exact keepsInv_next { h with } rfl
  · rw [hwrite]
    exact keepsInv_next (inv_reject (inv_setCmd h hidle w) hidle (by decide)) rfl
  · rw [hwrite, hexec]
    exact keepsInv_next (inv_issue (inv_setCmd h hidle w) hidle (decode_eq_ok_iff.mp hdecode)) (issue_params _ i)

theorem keepsInv_writeReg (v : Word) (r : Reg) : KeepsInv s.params (writeReg s v r) := by
  cases r with
  | ctrl => exact keepsInv_writeCtrl h v
  | status => exact keepsInv_next (inv_writeStatus h v) rfl
  | cmd => exact keepsInv_writeCmd h v
  | imgBase => exact keepsInv_next { h with base := imgBase_write_lt s.params v } rfl
  | kmem i => exact keepsInv_next { h with kmemSize := List.length_set.trans h.kmemSize } rfl
  | lutw => exact keepsInv_next (inv_setLut h _) rfl
  | ier | imgW | imgH | ksize | kdiv => exact keepsInv_next { h with } rfl
  | id | caps | eqN | eqCdfMin | eqStat | hist | reserved => exact keepsInv_next h rfl

theorem keepsInv_refuse (w : Nat) (k : AccessKind) : KeepsInv s.params (.next (s.refuse w k)) := by
  cases k <;> exact keepsInv_next { h with } rfl

theorem keepsInv_accessReg (r : Reg) (k : AccessKind) : KeepsInv s.params (accessReg s r k) := by
  by_cases hanswered : Answered s r
  case pos =>
    cases k with
    | read =>
      rw [accessReg_read hanswered]
      exact keepsInv_next { h with } rfl
    | write v =>
      rw [accessReg_write hanswered]
      exact keepsInv_writeReg (s := { s with response := .written }) { h with } v r
  case neg =>
    obtain ⟨harray, hnotIdle⟩ := Classical.not_imp.mp hanswered
    obtain ⟨l, hbusy⟩ := (engine_cases s).resolve_left hnotIdle
    rw [accessReg_refused hbusy harray]
    exact keepsInv_refuse h 4 k

/-- A write reaches image memory on an idle engine only, so no snapshot falls behind (R281). -/
theorem keepsInv_accessImem {a w : Nat} (hend : a + w ≤ s.params.imemSize) (k : AccessKind) :
    KeepsInv s.params (accessImem s a w k) := by
  obtain hidle | ⟨l, hbusy⟩ := engine_cases s
  case inr =>
    rw [accessImem_refused hbusy]
    exact keepsInv_refuse h w k
  case inl =>
    cases k with
    | read =>
      rw [accessImem_read_idle hidle]
      exact keepsInv_next { h with } rfl
    | write v =>
      rw [accessImem_write_idle hidle]
      exact keepsInv_next { h with
        memForm := wf_writeN h.memForm a w v
        memRange := below_writeN h.memRange hend v
        inFlight := fun _ hbusy => nomatch hidle.symm.trans hbusy } rfl

theorem keepsInv_hostAccess (a : HostAccess) : KeepsInv s.params (hostAccess s a) := by
  obtain ⟨-, haccess⟩ | ⟨offset, -, ⟨-, haccess⟩ | ⟨-, haccess⟩⟩ |
    ⟨address, hroute, ⟨-, haccess⟩ | ⟨haligned, haccess⟩⟩ := hostAccess_cases s a <;> rw [haccess]
  case inl => exact keepsInv_fault _ _
  case inr.inl.inl => exact keepsInv_fault _ _
  case inr.inl.inr => exact keepsInv_accessReg h _ _
  case inr.inr.inl => exact keepsInv_fault _ _
  case inr.inr.inr => exact keepsInv_accessImem h (imem_access_end_le h.params hroute haligned) a.kind

theorem keepsInv_hostStep : KeepsInv s.params (hostStep s) := by
  obtain hs | ⟨line, rest, hs⟩ := script_cases s
  case inl =>
    rw [hostStep, hs]
    exact keepsInv_next h rfl
  case inr =>
    cases line with
    | access a =>
      rw [hostStep_access hs]
      exact keepsInv_hostAccess (s := { s with script := rest }) { h with } a
    | wait =>
      rw [hostStep_wait hs]
      exact keepsInv_next { h with } rfl
    | takeIrq =>
      rw [hostStep_takeIrq hs]
      exact keepsInv_next { h with } rfl

theorem keepsInv_exec {l : Latch} (hbusy : s.engine = .busy l) : KeepsInv s.params (exec l.instr s) := by
  rw [exec_busy hbusy]
  exact keepsInv_next (inv_complete_effectOf h hbusy) (sameControl_effectOf l.instr l s).params

/-- The step is the engine's completion or the host's line, `turns` being no part of the invariant. -/
theorem keepsInv_step : KeepsInv s.params (step s) := by
  obtain ⟨-, -, hstep⟩ | ⟨_, ts, hbusy, hstep⟩ | ⟨_, _, ts, -, -, -, -, hstep⟩ := step_cases s <;> rw [hstep]
  · exact keepsInv_next h rfl
  · exact keepsInv_exec (s := { s with turns := ts }) { h with } hbusy
  · exact keepsInv_hostStep (s := { s with turns := ts }) { h with }

end

end Sys2Proof.Machine
end

section
/-! Settled: decode against encode (spec/30_encoding.md), and the invariant under every step. -/

namespace Sys2Proof.Machine

/-- Settles O3: legal fields are read as the command of their own row only (`decodeFields_answers`), and a word is its
fields (`fieldsOf_eq_fields_iff`). -/
theorem decodeInvertsEncode : Obligations.DecodeInvertsEncode :=
  fun _ _ => decode_eq_ok_iff

/-- Settles O58: the invariant is kept by each access of the host and by the engine's completion, in `keepsInv_step`. -/
theorem everyStepKeepsTheInvariant : Obligations.EveryStepKeepsTheInvariant :=
  fun _ t hinv hstep => keepsInv_step hinv t hstep

/-- Settles O5: the four bytes make up the command's word again (`wordOfBytes_extractLsb'`), which decodes to it. -/
theorem bytesOfACommandDecodeToIt : Obligations.BytesOfACommandDecodeToIt := by
  intro i rest
  have hdecode := decode_eq_ok_iff.mpr (wordOfBytes_extractLsb' (encode i))
  exact decodeBytes_cons_of_decode hdecode rest

/-- Settles O1: each word written out by its fields is the encoding of its command (R91, R95). -/
theorem legalWordsDecodeToTheirCommands : Obligations.LegalWordsDecodeToTheirCommands :=
  ⟨decode_eq_ok_iff.mpr rfl, decode_eq_ok_iff.mpr rfl, decode_eq_ok_iff.mpr rfl, decode_eq_ok_iff.mpr rfl,
    decode_eq_ok_iff.mpr rfl, decode_eq_ok_iff.mpr rfl, decode_eq_ok_iff.mpr rfl⟩

end Sys2Proof.Machine
end
